-- ==== Sys2Proof/Word.lean ====
section
/-! DEFINITION. The bit-vector types of the block (00_scope.md rules R7, R8, R10). -/

namespace Sys2Proof

/-- A register value, an address or a length: `n` is the block's width `XW` (R7). -/
abbrev Word (n : Nat) := BitVec n

/-- A byte of a binary buffer, or an 8-bit character of an encoded string (R7, R10). -/
abbrev Byte := BitVec 8

/-- A 6-bit value, one of the four fields of a group word (R11). -/
abbrev Sextet := BitVec 6

/-- The 24-bit group word `W` (30_encoding.md rule R87). -/
abbrev GroupWord := BitVec 24

end Sys2Proof
end

