-- ==== Sys2Proof/Config.lean ====
section
/-! DEFINITION. What is fixed for the block (00_scope.md rule R7) and the free values of the model. The width
`XW` is NOT here: it is a parameter, so it is a field of State and every claim quantifies over it (log 1). -/

namespace Sys2Proof

/-- The smallest width `XW` the spec admits (R7: "any value >= 8 is admitted"). -/
def Config.minWidth : Nat := 8

/-- The default of `XW` (R7), used for `State.reset` only. -/
def Config.defaultWidth : Nat := 32

/-- `NULL`, the address that stands for the source's "null" buffer reference (R7). -/
def Config.nullAddr : Nat := 0

/-- What an address that memory does not list reads as. DESIGN CHOICE, unsafe for claims about the contents of
reset memory only (log 2): every memory of 2^XW bytes has exactly one list. -/
def Config.unlistedByte : Byte := 0

/-- FREE VALUE (70_reset_and_hazards.md rule R183, log 8): whether the `n`-th byte a reset catches in flight holds
its new value. Nothing constrains it. -/
opaque Config.resetLanded : Nat → Bool

/-- FREE VALUE (20_memory.md rule R64, log 7): what the engine reads of a byte that race `n` has touched. -/
opaque Config.racedRead : Nat → Byte

/-- FREE VALUE (20_memory.md rules R64, R67, log 7): what buffer memory holds of a destination byte that race `n` has
touched. -/
opaque Config.racedByte : Nat → Byte

/-- FREE VALUE (20_memory.md rules R59, R64, log 7): which of the contents a destination byte has had the `n`-th early
load sees. -/
opaque Config.loadSees : Nat → Nat

end Sys2Proof
end

