-- ==== Sys2Proof/Syntax.lean ====
section
/-! DEFINITION. The five operations of the block (00_scope.md rule R3), one constructor per row of the opcode
table. A command carries no operand (30_encoding.md rules R81, R92): operands are the registers SRC, LEN, DST. -/

namespace Sys2Proof

/-- The operations, in the source's order (R3, R90). -/
inductive Instr where
  /-- `encodedSize(sourceSize)` (R101). -/
  | encsz
  /-- `encode(source, sourceSize, destination)` (R104). -/
  | enc
  /-- `decodedSize(encodedString)` (R123). -/
  | decsz
  /-- `validate(encodedString)` (R126). -/
  | val
  /-- `decode(encodedString, destination)` (R131). -/
  | dec
  deriving DecidableEq, Repr

/-- Why a command word names no operation (30_encoding.md rule R91). -/
inductive Reject where
  /-- Some bit above bit 2 is set: "bits `XW-1:3` are not all 0". -/
  | reservedBits
  /-- The `OP` field is 0, 6 or 7. -/
  | reservedOp
  deriving DecidableEq, Repr

/-- What decoding a command word gives: an operation, or the reason there is none. -/
inductive Decoded where
  | instr (i : Instr)
  | reject (r : Reject)
  deriving DecidableEq, Repr

end Sys2Proof
end

