-- ==== Sys2Proof/WellFormed.lean ====
section
/-! DEFINITION. Well-formedness of what the host may present to the block: the width, a register number, a command
word. An operation itself has no field, so every `Instr` is well formed (30_encoding.md rules R92, R94). -/

namespace Sys2Proof

/-- A width the spec admits (00_scope.md rule R7). -/
def Width.wf (n : Nat) : Bool := decide (Config.minWidth ≤ n)

/-- A register number that exists (10_state.md rule R32: "Register numbers above 7 do not exist"). -/
def RegNum.wf (i : Nat) : Bool := decide (i ≤ 7)

/-- A legal command word (30_encoding.md rule R91): reserved bits 0 and `OP` one of the five codes. -/
def Command.wf {n : Nat} (w : Word n) : Bool :=
  decide (w.toNat / 8 = 0) && decide (1 ≤ w.toNat % 8) && decide (w.toNat % 8 ≤ 5)

/-- There is no field of an operation to check. -/
def Instr.wf : Instr → Bool
  | .encsz => true
  | .enc => true
  | .decsz => true
  | .val => true
  | .dec => true

end Sys2Proof
end

