-- ==== Sys2Proof/Decode.lean ====
section
/-! DEFINITION. Decoding of command words (30_encoding.md rules R81, R90, R91) and, after it, the encoder. -/

namespace Sys2Proof

/-- The `OP` field, bits 2:0 of the command word (R81). -/
def opField {n : Nat} (w : Word n) : BitVec 3 := w.extractLsb' 0 3

/-- The reserved field, bits `XW-1:3` of the command word (R81). -/
def reservedField {n : Nat} (w : Word n) : BitVec (n - 3) := w.extractLsb' 3 (n - 3)

/-- The operation an `OP` code selects (R90); 0, 6 and 7 select none (R91). -/
def selectOp (op : BitVec 3) : Option Instr :=
  match op.toNat with
  | 1 => some .encsz
  | 2 => some .enc
  | 3 => some .decsz
  | 4 => some .val
  | 5 => some .dec
  | _ => none

/-- The decoder of command words: every bit is significant (R90). Total, rejecting by name (R91). -/
def decode {n : Nat} (w : Word n) : Decoded :=
  if reservedField w ≠ 0 then .reject .reservedBits
  else
    match selectOp (opField w) with
    | some i => .instr i
    | none => .reject .reservedOp

/-- The operation code of an operation (R90). -/
def opCode : Instr → Nat
  | .encsz => 1
  | .enc => 2
  | .decsz => 3
  | .val => 4
  | .dec => 5

/-- The command word of an operation: its code, zero-extended (R90). -/
def encode (n : Nat) (i : Instr) : Word n := BitVec.ofNat n (opCode i)

/-- The operation the decoder reads from the opcode table's word `w` of `nbits` bits, the bits above zero. The
table is for `XW = 32` (R90); a command word is one register write, so no byte order enters. -/
def decodeTableWord (nbits w : Nat) : Option Instr :=
  match decode (BitVec.ofNat Config.defaultWidth (w % 2 ^ nbits)) with
  | .instr i => some i
  | .reject _ => none

end Sys2Proof
end

