-- ==== Sys2Proof/Machine/State.lean ====
section
/-! DEFINITION. The state of one block, plain data (10_state.md rule R20), with the buffer memory (20_memory.md
rule R50), the launch parameters (00_scope.md rule R7) and the moves of the host and of reset that are still to
come. -/

namespace Sys2Proof.Machine

/-- `STATUS.STATE` (10_state.md rule R27). -/
inductive EngState where
  | idle | busy | done | error
  deriving DecidableEq, Repr

/-- The three causes of a FormatError (60_exceptions.md rule R151). -/
inductive FmtErr where
  | length | char | pad
  deriving DecidableEq, Repr

/-- `STATUS.ERR` (10_state.md rule R27). Codes 5, 6, 7 are never produced, so the type has no member for them. -/
inductive ErrCode where
  | none
  | format (e : FmtErr)
  | illegalOp
  deriving DecidableEq, Repr

/-- The two fields of `STATUS`; all its other bits read as 0 (10_state.md rule R27, log 11). -/
structure Status where
  state : EngState
  err : ErrCode
  deriving DecidableEq, Repr

/-- A range of addresses: `size` bytes from `base` upward. -/
structure Region where
  base : Nat
  size : Nat
  deriving DecidableEq, Repr

/-- Buffer memory: the bytes that differ from `Config.unlistedByte`, addresses strictly rising. -/
abbrev Memory := List Host.Cell

/-- The buffers of an operation whose end the host has not seen yet (20_memory.md rules R63, R64, 70_reset_and_hazards.md
rule R186, log 7). -/
structure Window where
  /-- The source range. -/
  src : Region
  /-- The destination range: the addresses the operation may write. -/
  dst : Region
  /-- What the destination range grows to if `padBytes` are stored to before they are read. -/
  dstMost : Region
  /-- The source bytes that decide how many trailing pads a DEC reads, hence how much it writes. -/
  padBytes : Region
  /-- Memory when the command was issued. -/
  old : Memory
  /-- The addresses of these buffers that another agent has stored to since. -/
  hits : List Nat
  deriving DecidableEq, Repr

/-- A move of the world outside the engine, for a block of width `n` (log 4). -/
inductive Move (n : Nat) where
  /-- The engine takes its turn (R37). -/
  | engine
  /-- `HostWrite(i, v)` (R33 to R36). -/
  | write (i : Nat) (v : Word n)
  /-- `HostRead(i)` (R32). -/
  | read (i : Nat)
  /-- Another agent, the host as a rule, stores a byte in buffer memory (R63, R64, R67). -/
  | store (a : Word n) (b : Byte)
  /-- The host loads a byte of buffer memory (R63, R64). -/
  | load (a : Word n)
  /-- The caller sets `Owned` for the launches that follow (R7). -/
  | own (rs : List Region)
  /-- `WAIT`: the engine steps until `STATUS` is not BUSY (R95). -/
  | wait
  /-- Reset between two engine steps (R180). -/
  | reset
  /-- Reset while an engine step is in progress (R183). -/
  | resetMidStep
  deriving DecidableEq, Repr

/-- What the host has read: a register's value, or a byte of buffer memory (log 5). -/
inductive Observed (n : Nat) where
  | reg (i : Nat) (v : Word n)
  | byte (a : Word n) (b : Byte)
  deriving DecidableEq, Repr

/-- The state of one block of width `xw`. R20: the eight registers and `K` are the block's complete state; memory is
outside the block; the fields after `owned` are the model's own. -/
structure State where
  /-- `XW`, the width of every register, address and length (R7). No step changes it (log 1). -/
  xw : Nat
  /-- `CMD`, `x[0]` (R30). -/
  cmd : Word xw
  /-- `SRC`, `x[1]` (R21). -/
  src : Word xw
  /-- `LEN`, `x[2]` (R22). -/
  len : Word xw
  /-- `DST`, `x[3]` (R23). -/
  dst : Word xw
  /-- `STATUS`, `x[4]` (R27). -/
  status : Status
  /-- `RESULT`, `x[5]` (R25, R38). -/
  result : Word xw
  /-- `ERRPOS`, `x[6]` (R31). -/
  errpos : Word xw
  /-- `ERRCHAR`, `x[7]` (R31). -/
  errchar : Word xw
  /-- `K`, the hidden group counter (R28). -/
  k : Word xw
  /-- Buffer memory (R50). -/
  mem : Memory
  /-- `Owned`, the addresses the caller has made available to the operation (R7, log 3). -/
  owned : List Region
  /-- `Owned` of the launches that follow, where the caller has set it during an operation (log 3). -/
  ownedNext : Option (List Region)
  /-- The operations whose end no read of STATUS has shown, newest first (R63, R186, log 7). -/
  windows : List Window
  /-- The addresses of those buffers that another agent has stored to since the last command, newest first, each with
  the number of its race (R64, log 7). -/
  raced : List (Nat × Nat)
  /-- The moves to come, the next one first (log 4). -/
  inputs : List (Move xw)
  /-- What the host has read, newest first (log 5). -/
  observed : List (Observed xw)
  /-- How many free values have been drawn (log 7, log 8). -/
  freeCount : Nat
  deriving DecidableEq, Repr

/-- The precondition violations, `undefined(Reason)` of 60_exceptions.md rule R157. The block detects none of them;
the spec tells a model to treat the step as a fault. All are safe: the model stops where a block might go on. -/
inductive Fault where
  /-- ENCSZ, ENC: `((LEN+2) div 3)*4 >= 2^XW` (R102, R107). Safe. -/
  | sizeOverflow
  /-- ENC, DECSZ, VAL, DEC: an access address is `>= 2^XW` (R52, R53). Safe. -/
  | addrRange
  /-- ENC, DECSZ, VAL, DEC: a read while `SRC = NULL`, or a write while `DST = NULL` (R52, R53). Safe. -/
  | nullBase
  /-- ENC, DECSZ, VAL, DEC: an access address is not in `Owned` (R52, R53). Safe. -/
  | outOfBounds
  /-- DEC: the string is not `Valid` (R132). Safe. -/
  | malformed
  deriving DecidableEq, Repr

/-- What the model declines. -/
inductive Refusal where
  /-- `exec`: the operation has no meaning yet. No arm of this model answers it. Safe. -/
  | notModelled (mnemonic : String)
  /-- A host access to a register number above 7: left to the platform (R32, log 9). Safe. -/
  | unmappedRegister (i : Nat)
  /-- A BUSY engine whose `CMD[2:0]` is 0, 6 or 7: no run reaches it, since R33 starts no such command (log 10).
  Safe. -/
  | busyWithoutOperation
  deriving DecidableEq, Repr

/-- The block after reset: every register 0, IDLE, no error (10_state.md rule R41, 70_reset_and_hazards.md rule
R180). The width is the spec's default; memory lists nothing; no move is pending. -/
def State.reset : State where
  xw := Config.defaultWidth
  cmd := 0
  src := 0
  len := 0
  dst := 0
  status := ⟨.idle, .none⟩
  result := 0
  errpos := 0
  errchar := 0
  k := 0
  mem := []
  owned := []
  ownedNext := none
  windows := []
  raced := []
  inputs := []
  observed := []
  freeCount := 0

end Sys2Proof.Machine
end

