-- ==== Sys2Proof/Machine/Flags.lean ====
section
/-! DEFINITION. The layout of STATUS: its field codes and its word (10_state.md rule R27, 60_exceptions.md rules
R151, R156). -/

namespace Sys2Proof.Machine

/-- `STATE`, bits 1:0 (R27). -/
def stateCode : EngState → Nat
  | .idle => 0
  | .busy => 1
  | .done => 2
  | .error => 3

/-- `ERR`, bits 4:2 (R27): NONE, then the FormatError codes in the order of R151, then ILLEGAL_OP. -/
def errCode : ErrCode → Nat
  | .none => 0
  | .format .length => 1
  | .format .char => 2
  | .format .pad => 3
  | .illegalOp => 4

/-- The value of `STATUS` as the host reads it: `STATE | ERR << 2`, the reserved bits 0 (R27). -/
def statusWord (n : Nat) (st : Status) : Word n :=
  BitVec.ofNat n (stateCode st.state + 4 * errCode st.err)

/-- R27's invariant on the two fields: `ERR != NONE` exactly when `STATE = ERROR`. -/
def Status.coherent (st : Status) : Bool := decide (st.err ≠ .none) == decide (st.state = .error)

end Sys2Proof.Machine
end

