-- ==== Sys2Proof/Machine/Tables.lean ====
section
/-! DEFINITION. The two constant tables of the block (10_state.md rule R29): the forward table `T` (30_encoding.md
rule R82, codes R83) and the inverse table `Cls` (R85, R86), written out as the spec's tables stand. -/

namespace Sys2Proof.Machine

/-- The class of a character (R85). -/
inductive CharClass where
  | data (v : Sextet)
  | pad
  | bad
  deriving DecidableEq, Repr

/-- The pad character `=` (R84). -/
def padChar : Byte := 0x3D

/-- Row `r` of `T`: indexes `16 r` to `16 r + 15` (the four columns of R82's table). -/
def alphabetRow : Nat → List Byte
  | 0 => [0x41, 0x42, 0x43, 0x44, 0x45, 0x46, 0x47, 0x48, 0x49, 0x4A, 0x4B, 0x4C, 0x4D, 0x4E, 0x4F, 0x50]
  | 1 => [0x51, 0x52, 0x53, 0x54, 0x55, 0x56, 0x57, 0x58, 0x59, 0x5A, 0x61, 0x62, 0x63, 0x64, 0x65, 0x66]
  | 2 => [0x67, 0x68, 0x69, 0x6A, 0x6B, 0x6C, 0x6D, 0x6E, 0x6F, 0x70, 0x71, 0x72, 0x73, 0x74, 0x75, 0x76]
  | _ => [0x77, 0x78, 0x79, 0x7A, 0x30, 0x31, 0x32, 0x33, 0x34, 0x35, 0x36, 0x37, 0x38, 0x39, 0x2B, 0x2F]

/-- The forward table `T[i]` (R82). -/
def alphabet (i : Sextet) : Byte := (alphabetRow (i.toNat / 16)).getD (i.toNat % 16) 0

/-- Row `h` of `Cls`: the characters whose high hexadecimal digit is `h` (R86). A row not listed is all Bad. -/
def classRow : Nat → List CharClass
  | 2 =>
    [.bad, .bad, .bad, .bad, .bad, .bad, .bad, .bad,
      .bad, .bad, .bad, .data 62, .bad, .bad, .bad, .data 63]
  | 3 =>
    [.data 52, .data 53, .data 54, .data 55, .data 56, .data 57, .data 58, .data 59,
      .data 60, .data 61, .bad, .bad, .bad, .pad, .bad, .bad]
  | 4 =>
    [.bad, .data 0, .data 1, .data 2, .data 3, .data 4, .data 5, .data 6,
      .data 7, .data 8, .data 9, .data 10, .data 11, .data 12, .data 13, .data 14]
  | 5 =>
    [.data 15, .data 16, .data 17, .data 18, .data 19, .data 20, .data 21, .data 22,
      .data 23, .data 24, .data 25, .bad, .bad, .bad, .bad, .bad]
  | 6 =>
    [.bad, .data 26, .data 27, .data 28, .data 29, .data 30, .data 31, .data 32,
      .data 33, .data 34, .data 35, .data 36, .data 37, .data 38, .data 39, .data 40]
  | 7 =>
    [.data 41, .data 42, .data 43, .data 44, .data 45, .data 46, .data 47, .data 48,
      .data 49, .data 50, .data 51, .bad, .bad, .bad, .bad, .bad]
  | _ => []

/-- The inverse table `Cls(c)` (R85, R86). -/
def charClass (c : Byte) : CharClass := (classRow (c.toNat / 16)).getD (c.toNat % 16) .bad

end Sys2Proof.Machine
end

