-- ==== Sys2Proof/Machine/Group.lean ====
section
/-! DEFINITION. The group formats and the pure functions on one group: EncGroup (40_encoder.md rule R103), TrailPad,
ChkGroup and DecGroup (41_decoder.md rules R121, R125, R129), over the 24-bit group word (30_encoding.md rule R87). -/

namespace Sys2Proof.Machine

/-- A text group, format TGRP (R88): four characters at ascending addresses. -/
structure TextGroup where
  c0 : Byte
  c1 : Byte
  c2 : Byte
  c3 : Byte
  deriving DecidableEq, Repr

/-- The characters of a text group, in buffer order (R88). -/
def TextGroup.toList (g : TextGroup) : List Byte := [g.c0, g.c1, g.c2, g.c3]

/-- Character `j` of a text group; `j` is 0 to 3 wherever it is used. -/
def TextGroup.get (g : TextGroup) (j : Nat) : Byte :=
  match j with
  | 0 => g.c0
  | 1 => g.c1
  | 2 => g.c2
  | _ => g.c3

/-- `W = b0 ‖ b1 ‖ b2`, the first byte most significant (R87). -/
def wordOfBytes (b0 b1 b2 : Byte) : GroupWord := b0 ++ b1 ++ b2

/-- `W = s0 ‖ s1 ‖ s2 ‖ s3` (R87). -/
def wordOfSextets (s0 s1 s2 s3 : Sextet) : GroupWord := s0 ++ s1 ++ s2 ++ s3

/-- Sextet `j` of `W`, taken from the most significant end (R87): bits `23-6j : 18-6j`. -/
def sextetOf (w : GroupWord) (j : Nat) : Sextet := w.extractLsb' (18 - 6 * j) 6

/-- Byte `j` of `W`, the first one most significant (R87): bits `23-8j : 16-8j`. -/
def byteOf (w : GroupWord) (j : Nat) : Byte := w.extractLsb' (16 - 8 * j) 8

/-- `EncGroup(m, b0, b1, b2)` (R103): `m` source bytes are present, the others count as 0. -/
def encGroup (m : Nat) (b0 b1 b2 : Byte) : TextGroup :=
  let w := wordOfBytes b0 (if 2 ≤ m then b1 else 0) (if m = 3 then b2 else 0)
  { c0 := alphabet (sextetOf w 0)
    c1 := alphabet (sextetOf w 1)
    c2 := if 2 ≤ m then alphabet (sextetOf w 2) else padChar
    c3 := if m = 3 then alphabet (sextetOf w 3) else padChar }

/-- Is the class of `c` Pad? Only this class is tested by R121 and by R131's second test. -/
def isPad (c : Byte) : Bool := decide (charClass c = .pad)

/-- `TrailPad(c0, c1, c2, c3)` (R121): the length of the run of pads that ends the group. -/
def trailPad (g : TextGroup) : Nat :=
  if !isPad g.c3 then 0
  else if !isPad g.c2 then 1
  else if !isPad g.c1 then 2
  else if !isPad g.c0 then 3
  else 4

/-- An offending character: the code, the position and the character that a FormatError reports (R153). -/
structure Offender where
  code : FmtErr
  pos : Nat
  ch : Byte
  deriving DecidableEq, Repr

/-- Does character `j` of the group offend, and how (the body of R125's loop)? -/
def offence (last : Bool) (g : TextGroup) (j : Nat) : Option FmtErr :=
  match charClass (g.get j) with
  | .bad => some .char
  | .pad => if last && (j == 3 || (j == 2 && isPad g.c3)) then none else some .pad
  | .data _ => none

/-- `ChkGroup(last, c0, c1, c2, c3)` (R125): the first offender, scanning `j = 0, 1, 2, 3`. -/
def chkGroup (last : Bool) (g : TextGroup) : Option Offender :=
  [0, 1, 2, 3].findSome? fun j => (offence last g j).map fun e => ⟨e, j, g.get j⟩

/-- `DecGroup(c0, c1, c2, c3)` (R129): 3, 2 or 1 bytes by the shape FULL, PAD1, PAD2, or not defined. -/
def decGroup (g : TextGroup) : Option (List Byte) :=
  match charClass g.c0, charClass g.c1, charClass g.c2, charClass g.c3 with
  | .data v0, .data v1, .data v2, .data v3 =>
    let w := wordOfSextets v0 v1 v2 v3
    some [byteOf w 0, byteOf w 1, byteOf w 2]
  | .data v0, .data v1, .data v2, .pad =>
    let w := wordOfSextets v0 v1 v2 0
    some [byteOf w 0, byteOf w 1]
  | .data v0, .data v1, .pad, .pad =>
    let w := wordOfSextets v0 v1 0 0
    some [byteOf w 0]
  | _, _, _, _ => none

end Sys2Proof.Machine
end

