-- ==== Sys2Proof/Machine/Ops.lean ====
section
/-! DEFINITION. The named operations over memory and registers: one byte read and written (20_memory.md rules R52,
R53), the registers by number (10_state.md rules R20, R32), the end of an operation (`finish`, R37), the ONE operation
that enters an error (`raise FormatError`, 60_exceptions.md rule R153; the command issue that leaves one is in
Machine/Launch.lean), reset. -/

namespace Sys2Proof.Machine

/-! ### Buffer memory as data -/

/-- The byte at address `a` (R50: each address holds one 8-bit value). -/
def Memory.read : Memory → Nat → Byte
  | [], _ => Config.unlistedByte
  | (a', b') :: rest, a => if a = a' then b' else Memory.read rest a

/-- List the cell `(a, b)` in front of `rest`, unless an unlisted address reads as `b` anyway. -/
def Memory.put (a : Nat) (b : Byte) (rest : Memory) : Memory :=
  if b = Config.unlistedByte then rest else (a, b) :: rest

/-- Replace the byte at address `a` by `b`, keeping the canonical form. -/
def Memory.write : Memory → Nat → Byte → Memory
  | [], a, b => Memory.put a b []
  | (a', b') :: rest, a, b =>
    if a < a' then Memory.put a b ((a', b') :: rest)
    else if a = a' then Memory.put a b rest
    else (a', b') :: Memory.write rest a b

/-- Memory after the bytes `bs` are written at `a`, `a + 1`, ... in that order (R61). -/
def writeBytes (m : Memory) : Nat → List Byte → Memory
  | _, [] => m
  | a, b :: bs => writeBytes (m.write a b) (a + 1) bs

/-- The canonical form above a bound: addresses at least `lo` and strictly rising, no cell that an unlisted address
would read as. -/
def Memory.wfFrom : Nat → Memory → Bool
  | _, [] => true
  | lo, (a, b) :: rest => decide (lo ≤ a) && decide (b ≠ Config.unlistedByte) && Memory.wfFrom (a + 1) rest

/-- The canonical form of memory: equal memories are equal lists. -/
def Memory.wf (m : Memory) : Bool := Memory.wfFrom 0 m

/-- Every listed address is below `bound` (R50: addresses 0 to 2^XW - 1). -/
def Memory.below (bound : Nat) (m : Memory) : Bool := m.all fun c => decide (c.1 < bound)

/-! ### The engine's accesses -/

/-- Is address `a` in the region? -/
def Region.has (r : Region) (a : Nat) : Bool := decide (r.base ≤ a) && decide (a < r.base + r.size)

/-- Is address `a` in `Owned` (00_scope.md rule R7)? -/
def ownedAddr (rs : List Region) (a : Nat) : Bool := rs.any fun r => r.has a

/-- The race that has touched address `a` since the last command, if one has (20_memory.md rule R64, log 7). -/
def raceAt (s : State) (a : Nat) : Option Nat := (s.raced.find? fun c => c.1 == a).map Prod.snd

/-- The byte the engine reads at `a`: what memory holds; of a concurrently written byte "any value" (R64, log 7). -/
def engineSees (s : State) (a : Nat) : Byte :=
  match raceAt s a with
  | some n => Config.racedRead n
  | none => s.mem.read a

/-- The byte memory holds once the engine has written `b` at `a`: `b`; where another agent has written too, in an order
the spec leaves open, any value (R64, R67, log 7). -/
def landed (s : State) (a : Nat) (b : Byte) : Byte :=
  match raceAt s a with
  | some n => Config.racedByte n
  | none => b

/-- The preconditions of an access to element `i` of the buffer based at `base`, in the order R52 and R53 list them
(log 6): address range, null base, `Owned`. The address is computed in unbounded integers and never wraps. -/
def accessFault (s : State) (base : Word s.xw) (i : Nat) : Option Fault :=
  if 2 ^ s.xw ≤ base.toNat + i then some .addrRange
  else if base.toNat = Config.nullAddr then some .nullBase
  else if !ownedAddr s.owned (base.toNat + i) then some .outOfBounds
  else none

/-- `MemRead(SRC + i, 1)` (R52). -/
def readSrc (s : State) (i : Nat) : Except Fault Byte :=
  match accessFault s s.src i with
  | some r => .error r
  | none => .ok (engineSees s (s.src.toNat + i))

/-- `MemWrite(DST + i, 1, b)` on the memory `m` (R53). -/
def writeDst (s : State) (m : Memory) (i : Nat) (b : Byte) : Except Fault Memory :=
  match accessFault s s.dst i with
  | some r => .error r
  | none => .ok (m.write (s.dst.toNat + i) (landed s (s.dst.toNat + i) b))

/-- The writes of one group in ascending address order (20_memory.md rule R61): the bytes `bs` to elements `i`,
`i + 1`, ... of the destination. -/
def writeDstRun (s : State) : Memory → Nat → List Byte → Except Fault Memory
  | m, _, [] => .ok m
  | m, i, b :: bs =>
    match writeDst s m i b with
    | .error r => .error r
    | .ok m' => writeDstRun s m' (i + 1) bs

/-! ### Registers by number -/

/-- The value of `x[i]` (R20, R32); `none` above 7, where no register exists. -/
def regValue (s : State) (i : Nat) : Option (Word s.xw) :=
  match i with
  | 0 => some s.cmd
  | 1 => some s.src
  | 2 => some s.len
  | 3 => some s.dst
  | 4 => some (statusWord s.xw s.status)
  | 5 => some s.result
  | 6 => some s.errpos
  | 7 => some s.errchar
  | _ => none

/-! ### The ends of an engine step -/

/-- A group step's advance: `RESULT <- RESULT + c`, `K <- K + 1` (R38, R104, R126, R131). -/
def advance (s : State) (c : Nat) : State :=
  { s with result := BitVec.ofNat s.xw (s.result.toNat + c), k := BitVec.ofNat s.xw (s.k.toNat + 1) }

/-- `finish`: `STATUS.STATE <- DONE` (R9, R37); `ERR` stays as it is. -/
def finish (s : State) : State :=
  { s with status := { s.status with state := .done } }

/-- `raise FormatError(code, pos, ch)`: the one operation that enters an error (60_exceptions.md rule R153). -/
def raiseFormatError (s : State) (o : Offender) : State :=
  { s with
    status := ⟨.error, .format o.code⟩
    errpos := BitVec.ofNat s.xw o.pos
    errchar := o.ch.setWidth s.xw
    result := 0 }

/-- Reset of the block (70_reset_and_hazards.md rule R180): every register and `K` become 0, `STATE` IDLE, `ERR` NONE.
Memory is not touched (R182); the width, the caller's `Owned` and the model's own fields are not the block's. -/
def resetBlock (s : State) : State :=
  { s with
    cmd := 0
    src := 0
    len := 0
    dst := 0
    status := ⟨.idle, .none⟩
    result := 0
    errpos := 0
    errchar := 0
    k := 0 }

end Sys2Proof.Machine
end

