-- ==== Sys2Proof/Machine/Operands.lean ====
section
/-! DEFINITION. The operands of the five operations: which registers each reads (30_encoding.md rules R90, R92), the
sizes and group counts computed from LEN in unbounded integers (40_encoder.md rules R101, R104, 41_decoder.md rules
R122, R126), and the groups gathered from the source buffer (20_memory.md rules R55, R61). -/

namespace Sys2Proof.Machine

/-- The operand registers an operation reads (R90's column "operands read"): SRC, LEN, DST are 1, 2, 3. -/
def operandRegs : Instr → List Nat
  | .encsz => [2]
  | .enc => [1, 2, 3]
  | .decsz => [1, 2]
  | .val => [1, 2]
  | .dec => [1, 2, 3]

/-- `G = (n + 2) div 3`, the number of binary groups (R104). -/
def binGroups (n : Nat) : Nat := (n + 2) / 3

/-- `((n + 2) div 3) * 4`, the encoded size (R101). -/
def encSize (n : Nat) : Nat := (n + 2) / 3 * 4

/-- `Q = n div 4`, the number of text groups (R126, R131). -/
def textGroups (n : Nat) : Nat := n / 4

/-- `DecSize(n, p) = (n div 4) * 3 - p` (R122). -/
def decSize (n p : Nat) : Nat := n / 4 * 3 - p

/-- `m = min(3, n - 3*K)`, the source bytes of group `k` (R104). -/
def groupBytes (n k : Nat) : Nat := min 3 (n - 3 * k)

/-- `K = Q - 1`: is group `k` the last text group (R126, R131)? -/
def isLastGroup (n k : Nat) : Bool := decide (k + 1 = textGroups n)

/-- The reads of an ENC group (R104): `m` bytes from element `i` upward, an absent byte not read and 0. -/
def gatherBytes (s : State) (m i : Nat) : Except Fault (Byte × Byte × Byte) :=
  match readSrc s i with
  | .error r => .error r
  | .ok b0 =>
    match if 2 ≤ m then readSrc s (i + 1) else .ok 0 with
    | .error r => .error r
    | .ok b1 =>
      match if m = 3 then readSrc s (i + 2) else .ok 0 with
      | .error r => .error r
      | .ok b2 => .ok (b0, b1, b2)

/-- The reads of a text group (R123, R126, R131): four characters from element `i` upward. -/
def gatherChars (s : State) (i : Nat) : Except Fault TextGroup :=
  match readSrc s i with
  | .error r => .error r
  | .ok c0 =>
    match readSrc s (i + 1) with
    | .error r => .error r
    | .ok c1 =>
      match readSrc s (i + 2) with
      | .error r => .error r
      | .ok c2 =>
        match readSrc s (i + 3) with
        | .error r => .error r
        | .ok c3 => .ok ⟨c0, c1, c2, c3⟩

/-- The element of the destination at which an ENC group is written (R104): `4*K`. -/
def encElement (s : State) : Nat := 4 * s.k.toNat

/-- The element of the destination at which a DEC group is written (R131, R38): `RESULT`. -/
def decElement (s : State) : Nat := s.result.toNat

end Sys2Proof.Machine
end

