-- ==== Sys2Proof/Machine/Decoder.lean ====
section
/-! DEFINITION. The decoder unit: one engine step of DECSZ, VAL and DEC (41_decoder.md rules R123, R126, R131). -/

namespace Sys2Proof.Machine

/-- The report of a bad length (60_exceptions.md rules R151, R153): `ERRPOS = LEN`, `ERRCHAR = 0`. -/
def lengthOffender (n : Nat) : Offender := ⟨.length, n, 0⟩

/-- DECSZ (R123): a bad length, an empty string, or the last group's pads counted. -/
def execDecsz (s : State) : Host.Outcome State Fault Refusal :=
  let n := s.len.toNat
  if n % 4 ≠ 0 then .next (raiseFormatError s (lengthOffender n))
  else if n = 0 then .next (finish { s with result := 0 })
  else
    match gatherChars s (n - 4) with
    | .error r => .fault r
    | .ok g =>
      if 3 ≤ trailPad g then .next (raiseFormatError s ⟨.pad, n - trailPad g, padChar⟩)
      else .next (finish { s with result := BitVec.ofNat s.xw (decSize n (trailPad g)) })

/-- VAL (R126): a bad length, `finish` when `K = Q`, else one group checked. `RESULT` stays 0. -/
def execVal (s : State) : Host.Outcome State Fault Refusal :=
  let n := s.len.toNat
  if n % 4 ≠ 0 then .next (raiseFormatError s (lengthOffender n))
  else if s.k.toNat = textGroups n then .next (finish s)
  else
    match gatherChars s (4 * s.k.toNat) with
    | .error r => .fault r
    | .ok g =>
      match chkGroup (isLastGroup n s.k.toNat) g with
      | some o => .next (raiseFormatError s { o with pos := 4 * s.k.toNat + o.pos })
      | none => .next { s with k := BitVec.ofNat s.xw (s.k.toNat + 1) }

/-- The group step of DEC (R131's else branch): the group's reads, the two MALFORMED tests, the writes of its bytes,
the advance. -/
def decGroupStep (s : State) : Host.Outcome State Fault Refusal :=
  match gatherChars s (4 * s.k.toNat) with
  | .error r => .fault r
  | .ok g =>
    match decGroup g with
    | none => .fault .malformed
    | some bs =>
      if !isLastGroup s.len.toNat s.k.toNat && (isPad g.c2 || isPad g.c3) then .fault .malformed
      else
        match writeDstRun s s.mem (decElement s) bs with
        | .error r => .fault r
        | .ok mem => .next (advance { s with mem := mem } bs.length)

/-- DEC (R131, R132): a bad length is MALFORMED, `finish` when `K = Q`, else one group. -/
def execDec (s : State) : Host.Outcome State Fault Refusal :=
  if s.len.toNat % 4 ≠ 0 then .fault .malformed
  else if s.k.toNat = textGroups s.len.toNat then .next (finish s)
  else decGroupStep s

end Sys2Proof.Machine
end

