-- ==== Sys2Proof/Machine/Encoder.lean ====
section
/-! DEFINITION. The encoder unit: one engine step of ENCSZ and ENC (40_encoder.md rules R101, R102, R104, R107). -/

namespace Sys2Proof.Machine

/-- ENCSZ (R101): the encoded size, or SIZE_OVERFLOW when it does not fit `XW` bits (R102). -/
def execEncsz (s : State) : Host.Outcome State Fault Refusal :=
  if 2 ^ s.xw ≤ encSize s.len.toNat then .fault .sizeOverflow
  else .next (finish { s with result := BitVec.ofNat s.xw (encSize s.len.toNat) })

/-- The group step of ENC (R104's else branch): the group's reads, EncGroup, its four writes, the advance. -/
def encGroupStep (s : State) : Host.Outcome State Fault Refusal :=
  let m := groupBytes s.len.toNat s.k.toNat
  match gatherBytes s m (3 * s.k.toNat) with
  | .error r => .fault r
  | .ok (b0, b1, b2) =>
    match writeDstRun s s.mem (encElement s) (encGroup m b0 b1 b2).toList with
    | .error r => .fault r
    | .ok mem => .next (advance { s with mem := mem } 4)

/-- ENC (R104): the size check at every step, `finish` when `K = G`, else one group. It writes no terminator
(R108). -/
def execEnc (s : State) : Host.Outcome State Fault Refusal :=
  if 2 ^ s.xw ≤ 4 * binGroups s.len.toNat then .fault .sizeOverflow
  else if s.k.toNat = binGroups s.len.toNat then .next (finish s)
  else encGroupStep s

end Sys2Proof.Machine
end

