-- ==== Sys2Proof/Machine/Dispatch.lean ====
section
/-! DEFINITION. One engine step of each operation (10_state.md rule R37): one arm per row of the opcode table. -/

namespace Sys2Proof.Machine

def exec (i : Instr) (s : State) : Host.Outcome State Fault Refusal :=
  match i with
  | .encsz => Sys2Proof.Machine.execEncsz s
  | .enc => Sys2Proof.Machine.execEnc s
  | .decsz => Sys2Proof.Machine.execDecsz s
  | .val => Sys2Proof.Machine.execVal s
  | .dec => Sys2Proof.Machine.execDec s

end Sys2Proof.Machine
end

