-- ==== Sys2Proof/Machine/Launch.lean ====
section
/-! DEFINITION. The launch of an operation: its buffers (20_memory.md rule R51), the window in which the host has not seen
its end (R63, R64, 70_reset_and_hazards.md rule R186), and the command issue (10_state.md rule R33). -/

namespace Sys2Proof.Machine

/-! ### The buffers of an operation -/

/-- The source range of an operation (R51): `LEN` bytes from `SRC`; ENCSZ reads no memory. -/
def sourceRange (s : State) : Instr → Region
  | .encsz => ⟨0, 0⟩
  | .enc => ⟨s.src.toNat, s.len.toNat⟩
  | .decsz => ⟨s.src.toNat, s.len.toNat⟩
  | .val => ⟨s.src.toNat, s.len.toNat⟩
  | .dec => ⟨s.src.toNat, s.len.toNat⟩

/-- The text group memory holds at `a`. -/
def groupInMemory (m : Memory) (a : Nat) : TextGroup := ⟨m.read a, m.read (a + 1), m.read (a + 2), m.read (a + 3)⟩

/-- The bytes a DEC of `n` characters may write (R51): `(n div 4)*3 - p` with `p` the trailing pads of the last group
`g`. R51 gives the count for a validated string only. DESIGN CHOICE for any other (MALFORMED, 41_decoder.md rule R132,
which defines no bytes written for the group it stops at): at most three pads are counted, a bad length gives no bytes,
and nothing else of the group is looked at (log 7). -/
def decReach (n : Nat) (g : TextGroup) : Nat := if n % 4 = 0 then decSize n (min 3 (trailPad g)) else 0

/-- Memory once a DEC has decoded its first `k` groups (20_memory.md rules R61, R62), nobody else storing; a group that is
written and is not the last has three bytes (R131). -/
def memoryAfterGroups (s : State) : Nat → Memory
  | 0 => s.mem
  | k + 1 =>
    let m := memoryAfterGroups s k
    match decGroup (groupInMemory m (s.src.toNat + 4 * k)) with
    | some bs => writeBytes m (s.dst.toNat + 3 * k) bs
    | none => m

/-- The last text group of the source in memory `m`. -/
def lastGroupIn (s : State) (m : Memory) : TextGroup := groupInMemory m (s.src.toNat + (s.len.toNat - 4))

/-- The bytes of a DEC's destination (R51), `p` being the trailing pads of the string when the command is issued. Where
the groups before the last overwrite it (R62) the engine may read other pads; what it then writes counts too. DESIGN
CHOICE: if what it reads is no group at all, so that the DEC stops there (MALFORMED, 41_decoder.md rule R132, which writes
nothing), that group still counts by its pads, as `decReach` has it; `AAAATQ==` with `DST = SRC + 5` gets 6 bytes
(log 7). -/
def decDestSize (s : State) : Nat :=
  max (decReach s.len.toNat (lastGroupIn s s.mem))
    (decReach s.len.toNat (lastGroupIn s (memoryAfterGroups s (textGroups s.len.toNat - 1))))

/-- The destination range of an operation as its source stands when it is issued (R51). -/
def destRange (s : State) : Instr → Region
  | .encsz => ⟨0, 0⟩
  | .enc => ⟨s.dst.toNat, encSize s.len.toNat⟩
  | .decsz => ⟨0, 0⟩
  | .val => ⟨0, 0⟩
  | .dec => ⟨s.dst.toNat, decDestSize s⟩

/-- The destination range whatever the characters of the source turn out to be. -/
def destMost (s : State) : Instr → Region
  | .encsz => ⟨0, 0⟩
  | .enc => ⟨s.dst.toNat, encSize s.len.toNat⟩
  | .decsz => ⟨0, 0⟩
  | .val => ⟨0, 0⟩
  | .dec => ⟨s.dst.toNat, decSize s.len.toNat 0⟩

/-- Do the writes of a DEC's groups before the last reach into the last group (R62)? They are the addresses from `DST` to
`DST + 3*(Q-1) - 1`, so it takes two groups at least. -/
def overwritesLast (s : State) : Bool :=
  decide (2 ≤ textGroups s.len.toNat) && decide (s.dst.toNat < s.src.toNat + s.len.toNat) &&
    decide (s.src.toNat + (s.len.toNat - 4) < s.dst.toNat + 3 * (textGroups s.len.toNat - 1))

/-- The source bytes that decide how many trailing pads a DEC reads: its last group, and where earlier groups write into
that one, every source byte. The other operations' destinations do not depend on the source's contents. -/
def padRange (s : State) : Instr → Region
  | .encsz => ⟨0, 0⟩
  | .enc => ⟨0, 0⟩
  | .decsz => ⟨0, 0⟩
  | .val => ⟨0, 0⟩
  | .dec =>
    if s.len.toNat % 4 ≠ 0 ∨ s.len.toNat = 0 then ⟨0, 0⟩
    else if overwritesLast s then ⟨s.src.toNat, s.len.toNat⟩
    else ⟨s.src.toNat + (s.len.toNat - 4), 4⟩

/-- The window a legal command opens; an illegal one has no buffers (log 7). -/
def openWindows (s : State) : Decoded → List Window
  | .instr i => ⟨sourceRange s i, destRange s i, destMost s i, padRange s i, s.mem, []⟩ :: s.windows
  | .reject _ => s.windows

/-! ### Command issue -/

/-- The command-issue action for the word `v` (10_state.md rule R33), the caller having seen that the engine is not
BUSY: ILLEGAL_OP for a word that names no operation (R91, R156), else BUSY. It is also the only exit from an error
(60_exceptions.md rule R162). The CMD write is a synchronisation point (20_memory.md rule R63): earlier stores are no
longer races. `Owned` is this launch's from now on (log 3). -/
def issueCommand (s : State) (v : Word s.xw) : State :=
  { s with
    cmd := v
    k := 0
    result := 0
    errpos := 0
    errchar := 0
    status :=
      match decode v with
      | .instr _ => ⟨.busy, .none⟩
      | .reject _ => ⟨.error, .illegalOp⟩
    owned := s.ownedNext.getD s.owned
    ownedNext := none
    windows := openWindows s (decode v)
    raced := [] }

end Sys2Proof.Machine
end

