-- ==== Sys2Proof/Machine/Sequencer.lean ====
section
/-! DEFINITION. Who moves and how: the engine's turn (10_state.md rules R30, R37), the host's register accesses (R32 to
R36), accesses to buffer memory from outside the engine (20_memory.md rules R63, R64, R67), reset between and inside
steps (70_reset_and_hazards.md rules R180 to R183), WAIT (30_encoding.md rule R95). -/

namespace Sys2Proof.Machine

/-! ### The engine -/

/-- The operation a step runs: selected by `CMD[2:0]` (R30, R37). -/
def runningOp (s : State) : Option Instr := selectOp (opField s.cmd)

/-- The engine's turn (R37): a step exactly when BUSY; in IDLE, DONE and ERROR it has none and nothing changes. -/
def engineTurn (s : State) : Host.Outcome State Fault Refusal :=
  match s.status.state with
  | .busy =>
    match runningOp s with
    | some i => exec i s
    | none => .refused .busyWithoutOperation
  | .idle => .next s
  | .done => .next s
  | .error => .next s

/-! ### The host and the registers -/

/-- Is the engine BUSY? -/
def State.isBusy (s : State) : Bool := decide (s.status.state = .busy)

/-- `HostWrite(i, v)`: the command issue (R33), the operand registers (R34), both ignored while BUSY (R35), the
read-only registers always ignored (R36); above 7 there is no register (R32, log 9). -/
def hostWrite (s : State) (i : Nat) (v : Word s.xw) : Host.Outcome State Fault Refusal :=
  match i with
  | 0 => .next (if s.isBusy then s else issueCommand s v)
  | 1 => .next (if s.isBusy then s else { s with src := v })
  | 2 => .next (if s.isBusy then s else { s with len := v })
  | 3 => .next (if s.isBusy then s else { s with dst := v })
  | 4 => .next s
  | 5 => .next s
  | 6 => .next s
  | 7 => .next s
  | _ => .refused (.unmappedRegister i)

/-- Does a read of register `i` show the host that the engine has ended (20_memory.md rule R63)? Only a read of STATUS
with `STATE != BUSY` does (70_reset_and_hazards.md rule R186). DESIGN CHOICE: between the end and that read, where R63 has
no synchronisation point, the operation's buffers count as still in use (log 7). -/
def showsEnd (s : State) (i : Nat) : Bool := (i == 4) && !s.isBusy

/-- `HostRead(i)` (R32): the value of `x[i]` at any time, no side effect on the block; what was read goes to the model's
log, and a read that shows the end closes the windows (R63, log 7). -/
def hostRead (s : State) (i : Nat) : Host.Outcome State Fault Refusal :=
  match regValue s i with
  | some v =>
    .next { s with
      observed := .reg i v :: s.observed
      windows := if showsEnd s i then [] else s.windows
      raced := if showsEnd s i then [] else s.raced }
  | none => .refused (.unmappedRegister i)

/-! ### Buffer memory, from outside the engine -/

/-- Is `a` an address of an operation whose end the host has not seen: of its source, or one it may yet write? -/
def contested (s : State) (a : Nat) : Bool := s.windows.any fun w => w.src.has a || w.dstMost.has a

/-- Is the engine running with its last text group unread, so that the pads a DEC will read are not settled yet? -/
def padsUnread (s : State) : Bool := s.isBusy && decide (s.k.toNat < textGroups s.len.toNat)

/-- One window after a store at `a` from outside the engine: it notes a store it concerns; where the store may change the
pads a DEC has yet to read (`open_`), the destination range grows. -/
def Window.note (open_ : Bool) (a : Nat) (w : Window) : Window :=
  if w.src.has a || w.dstMost.has a then
    { w with dst := if open_ && w.padBytes.has a then w.dstMost else w.dst, hits := a :: w.hits }
  else w

/-- The windows after a store at `a` from outside the engine. The newest is the running operation's. -/
def noteStore (s : State) (a : Nat) : List Window :=
  match s.windows with
  | [] => []
  | w :: ws => w.note (padsUnread s) a :: ws.map (Window.note false a)

/-- Is `a` in the destination range of an operation whose end the host has not seen? -/
def inDest (ws : List Window) (a : Nat) : Bool := ws.any fun w => w.dst.has a

/-- A store to buffer memory by an agent other than the engine (R63, R67). On the buffers of an operation whose end no
read of STATUS has shown it is a race (R64, R186): the engine reads any value there until the next command, and a
destination byte holds any value. DESIGN CHOICE: of the two treatments R64 offers the model admits the move (log 7). -/
def hostStore (s : State) (a : Word s.xw) (b : Byte) : Host.Outcome State Fault Refusal :=
  if contested s a.toNat then
    let ws := noteStore s a.toNat
    .next { s with
      mem := s.mem.write a.toNat (if inDest ws a.toNat then Config.racedByte s.freeCount else b)
      windows := ws
      raced := (a.toNat, s.freeCount) :: s.raced
      freeCount := s.freeCount + 1 }
  else .next { s with mem := s.mem.write a.toNat b }

/-- The contents the byte at `a` has had since the commands whose end the host has not seen: now, and at each issue. -/
def versionsOf (s : State) (a : Nat) : List Byte :=
  s.mem.read a :: (s.windows.filter fun w => w.dst.has a).map fun w => w.old.read a

/-- Has another agent stored to the destination byte at `a`, the host not having seen the operation's end? -/
def destHit (s : State) (a : Nat) : Bool := s.windows.any fun w => w.dst.has a && w.hits.contains a

/-- What the host's load of such a destination byte sees (R59, R64, 93_implementation_defined.md U10): "any value between
old and new", one of the contents it has had since the issue; any value if another agent has stored there. -/
def earlyLoad (s : State) (a : Nat) : Byte :=
  if destHit s a then Config.racedRead s.freeCount
  else (versionsOf s a).getD (Config.loadSees s.freeCount) (s.mem.read a)

/-- A load of buffer memory by the host (R63). DESIGN CHOICE: of a destination byte of an operation whose end no read of
STATUS has shown it is admitted too (log 7). -/
def hostLoad (s : State) (a : Word s.xw) : Host.Outcome State Fault Refusal :=
  if inDest s.windows a.toNat then
    .next { s with observed := .byte a (earlyLoad s a.toNat) :: s.observed, freeCount := s.freeCount + 1 }
  else .next { s with observed := .byte a (s.mem.read a.toNat) :: s.observed }

/-- The caller sets `Owned` for the launches that follow (00_scope.md rule R7); of a running operation it is fixed, so the
new set waits for the next command (log 3). -/
def hostOwn (s : State) (rs : List Region) : Host.Outcome State Fault Refusal :=
  .next (if s.isBusy then { s with ownedNext := some rs } else { s with owned := rs, ownedNext := none })

/-! ### Reset -/

/-- The destination addresses of the group step in progress, none for an operation that writes nothing (R104, R131,
R38). A DEC group writes at most three bytes. -/
def stepDest (s : State) : Instr → List Nat
  | .encsz => []
  | .enc => [0, 1, 2, 3].map fun t => s.dst.toNat + encElement s + t
  | .decsz => []
  | .val => []
  | .dec => [0, 1, 2].map fun t => s.dst.toNat + decElement s + t

/-- Memory when reset catches a group step: each address of the list holds its new value or its old one, by the free
values from `c` on (R183, log 8). -/
def landSome (new : Memory) : Nat → List Nat → Memory → Memory
  | _, [], m => m
  | c, a :: rest, m =>
    landSome new (c + 1) rest (if Config.resetLanded c then m.write a (new.read a) else m)

/-- Reset while an engine step is in progress (R183): the registers as after any reset, each destination byte of that
one group old or new. If that step has no defined successor, neither has the memory after it. -/
def resetInStep (s : State) : Host.Outcome State Fault Refusal :=
  match s.status.state with
  | .busy =>
    match runningOp s with
    | some i =>
      match exec i s with
      | .next t =>
        let dest := stepDest s i
        .next (resetBlock
          { s with
            mem := landSome t.mem s.freeCount dest s.mem
            freeCount := s.freeCount + dest.length })
      | .fault r => .fault r
      | .refused r => .refused r
    | none => .refused .busyWithoutOperation
  | .idle => .next (resetBlock s)
  | .done => .next (resetBlock s)
  | .error => .next (resetBlock s)

/-! ### One move -/

/-- `WAIT` (R95): while BUSY the engine steps and the host goes on waiting; then one last read of `STATUS` (log 16). -/
def waitTurn (s : State) (rest : List (Move s.xw)) : Host.Outcome State Fault Refusal :=
  if s.isBusy then engineTurn s
  else hostRead { s with inputs := rest } 4

/-- The next move of the list is taken; with none left the engine has every turn (log 4). -/
def takeTurn (s : State) : Host.Outcome State Fault Refusal :=
  match s.inputs with
  | [] => engineTurn s
  | .engine :: rest => engineTurn { s with inputs := rest }
  | .write i v :: rest => hostWrite { s with inputs := rest } i v
  | .read i :: rest => hostRead { s with inputs := rest } i
  | .store a b :: rest => hostStore { s with inputs := rest } a b
  | .load a :: rest => hostLoad { s with inputs := rest } a
  | .own rs :: rest => hostOwn { s with inputs := rest } rs
  | .wait :: rest => waitTurn s rest
  | .reset :: rest => .next (resetBlock { s with inputs := rest })
  | .resetMidStep :: rest => resetInStep { s with inputs := rest }

/-- The command word `w` of `nbits` bits, issued (R33) with no other move pending: the engine's next step is its
first (log 14). -/
def launchWord (s : State) (nbits w : Nat) : State :=
  let s' := { s with inputs := [] }
  issueCommand s' (BitVec.ofNat s'.xw (w % 2 ^ nbits))

end Sys2Proof.Machine
end

