-- ==== Sys2Proof/Machine/Step.lean ====
section
/-! DEFINITION. One step of the whole machine, and how an instruction is put before it. -/

namespace Sys2Proof.Machine

/-- One step: the next move of the host, of reset or of the engine (Machine/Sequencer.lean). -/
def step (s : State) : Host.Outcome State Fault Refusal := takeTurn s

/-- `s` with the command word `w` issued, so that the next step is that operation's first (log 14). -/
def State.withFetchWord (s : State) (nbits w : Nat) : State := launchWord s nbits w

end Sys2Proof.Machine
end

