-- ==== Sys2Proof/Machine/HostProgram.lean ====
section
/-! DEFINITION. The spec's notation for host command sequences (30_encoding.md rule R95) and its expansion into moves. -/

namespace Sys2Proof.Machine

/-- A line of a host program, for a block of width `n` (R95). -/
inductive HostLine (n : Nat) where
  | wr (r : Nat) (v : Word n)
  | rd (r : Nat)
  | encsz (len : Word n)
  | enc (src len dst : Word n)
  | decsz (src len : Word n)
  | val (src len : Word n)
  | dec (src len dst : Word n)
  | wait
  deriving DecidableEq, Repr

/-- The host actions of a line, in order (R95's column "expansion"): SRC, LEN, DST are registers 1, 2, 3, CMD is 0. -/
def HostLine.moves {n : Nat} : HostLine n → List (Move n)
  | .wr r v => [.write r v]
  | .rd r => [.read r]
  | .encsz len => [.write 2 len, .write 0 (encode n .encsz), .wait]
  | .enc src len dst => [.write 1 src, .write 2 len, .write 3 dst, .write 0 (encode n .enc), .wait]
  | .decsz src len => [.write 1 src, .write 2 len, .write 0 (encode n .decsz), .wait]
  | .val src len => [.write 1 src, .write 2 len, .write 0 (encode n .val), .wait]
  | .dec src len dst => [.write 1 src, .write 2 len, .write 3 dst, .write 0 (encode n .dec), .wait]
  | .wait => [.wait]

/-- The moves of a program. -/
def programMoves {n : Nat} (p : List (HostLine n)) : List (Move n) := p.flatMap HostLine.moves

/-- The "encoding" of a program: the (register number, value) pairs of its `WR` actions (R95). -/
def programWrites {n : Nat} (p : List (HostLine n)) : List (Nat × Word n) :=
  (programMoves p).filterMap fun m =>
    match m with
    | .write r v => some (r, v)
    | _ => none

end Sys2Proof.Machine
end

