-- ==== Sys2Proof/Safety.lean ====
section
/-! DEFINITION. The vocabulary of the claims: the whole-buffer functions the spec defines beside the machine (Enc of
40_encoder.md rule R105, Valid and Dec of 41_decoder.md rules R124, R133, the grammar of 30_encoding.md rule R89), when
an access is allowed, which states a run can reach, and how long an operation takes (60_exceptions.md rule R160). -/

namespace Sys2Proof.Machine

/-! ### Whole buffers -/

/-- `Enc(b)` (R105): the concatenation of EncGroup over the groups of `b`. -/
def encText (b : List Byte) : List Byte :=
  (List.range (binGroups b.length)).flatMap fun k =>
    (encGroup (groupBytes b.length k) (b.getD (3 * k) 0) (b.getD (3 * k + 1) 0) (b.getD (3 * k + 2) 0)).toList

/-- Text group `k` of a string (R88). -/
def groupAt (t : List Byte) (k : Nat) : TextGroup :=
  ⟨t.getD (4 * k) 0, t.getD (4 * k + 1) 0, t.getD (4 * k + 2) 0, t.getD (4 * k + 3) 0⟩

/-- Does character `j` of the group offend (R125)? `Bad` anywhere; `Pad` unless in the last group at `j = 3`, or at
`j = 2` with a pad after it. -/
def illegalAt (last : Bool) (g : TextGroup) (j : Nat) : Prop :=
  charClass (g.get j) = .bad ∨
    (charClass (g.get j) = .pad ∧ ¬ (last = true ∧ (j = 3 ∨ (j = 2 ∧ charClass g.c3 = .pad))))

/-- `Dec(t)` (R133): the concatenation of DecGroup over the groups of `t`; meant for a valid `t`. -/
def decText (t : List Byte) : List Byte :=
  (List.range (textGroups t.length)).flatMap fun k => (decGroup (groupAt t k)).getD []

/-- What validation reports of a string, if anything (R126, R159): a bad length first, else the first offender of the
first group that has one. -/
def firstOffender (t : List Byte) : Option Offender :=
  if t.length % 4 ≠ 0 then some (lengthOffender t.length)
  else
    (List.range (textGroups t.length)).findSome? fun k =>
      (chkGroup (isLastGroup t.length k) (groupAt t k)).map fun o => { o with pos := 4 * k + o.pos }

/-- `Valid(t)` (R124): length a multiple of 4 and no group has an offender. -/
def validText (t : List Byte) : Bool :=
  decide (t.length % 4 = 0) &&
    (List.range (textGroups t.length)).all fun k => (chkGroup (isLastGroup t.length k) (groupAt t k)).isNone

/-- Is `c` a data character (R11): a member of the 64-symbol alphabet? -/
def isData (c : Byte) : Bool :=
  match charClass c with
  | .data _ => true
  | .pad => false
  | .bad => false

/-- The shape FULL (R88). -/
def TextGroup.full (g : TextGroup) : Bool := isData g.c0 && isData g.c1 && isData g.c2 && isData g.c3

/-- The shape PAD1 (R88). -/
def TextGroup.pad1 (g : TextGroup) : Bool := isData g.c0 && isData g.c1 && isData g.c2 && isPad g.c3

/-- The shape PAD2 (R88). -/
def TextGroup.pad2 (g : TextGroup) : Bool := isData g.c0 && isData g.c1 && isPad g.c2 && isPad g.c3

/-- The grammar of R89: every group but the last is FULL, the last is FULL, PAD1 or PAD2. -/
def grammarText (t : List Byte) : Prop :=
  t.length % 4 = 0 ∧ ∀ k, k < textGroups t.length →
    (groupAt t k).full = true ∨
      (k + 1 = textGroups t.length ∧ ((groupAt t k).pad1 = true ∨ (groupAt t k).pad2 = true))

/-- The number of trailing `=` of a string (R134). -/
def trailingPads (t : List Byte) : Nat := (t.reverse.takeWhile isPad).length

/-- The bits of a last data character that DecGroup discards (R129): the low four of `v1` in PAD2, the low two of `v2`
in PAD1. They are zero in every group the encoder produces. -/
def discardsZero (g : TextGroup) : Bool :=
  match charClass g.c1, charClass g.c2, charClass g.c3 with
  | .data v1, .pad, .pad => decide (v1.extractLsb' 0 4 = 0)
  | .data _, .data v2, .pad => decide (v2.extractLsb' 0 2 = 0)
  | _, _, _ => true

/-! ### Buffers in memory -/

/-- The `n` bytes of memory from address `a` upward. -/
def bytesAt (m : Memory) (a n : Nat) : List Byte := (List.range n).map fun i => m.read (a + i)

/-- The source buffer of the running operation (R10): `LEN` bytes from `SRC`. -/
def sourceBytes (s : State) : List Byte := bytesAt s.mem s.src.toNat s.len.toNat

/-- Byte `i` of the source buffer as the engine reads it (R55, R64). -/
def sourceByte (s : State) (i : Nat) : Byte := engineSees s (s.src.toNat + i)

/-- The text group the decoder unit reads at element `i` of the source (R123, R126, R131). -/
def sourceGroup (s : State) (i : Nat) : TextGroup :=
  ⟨sourceByte s i, sourceByte s (i + 1), sourceByte s (i + 2), sourceByte s (i + 3)⟩

/-- The characters an ENC group step writes (R104): EncGroup of the group's source bytes, of which it ignores those
the group does not have. -/
def encGroupOf (s : State) : TextGroup :=
  encGroup (groupBytes s.len.toNat s.k.toNat) (sourceByte s (3 * s.k.toNat)) (sourceByte s (3 * s.k.toNat + 1))
    (sourceByte s (3 * s.k.toNat + 2))

/-- Element `i` of the source may be read (R52's three preconditions). -/
abbrev SrcOk (s : State) (i : Nat) : Prop :=
  s.src.toNat + i < 2 ^ s.xw ∧ s.src.toNat ≠ Config.nullAddr ∧ ownedAddr s.owned (s.src.toNat + i) = true

/-- Element `i` of the destination may be written (R53's three preconditions). -/
abbrev DstOk (s : State) (i : Nat) : Prop :=
  s.dst.toNat + i < 2 ^ s.xw ∧ s.dst.toNat ≠ Config.nullAddr ∧ ownedAddr s.owned (s.dst.toNat + i) = true

/-- What memory holds of the bytes `bs` once the engine has written them at `a`, `a + 1`, ...: the bytes themselves, but
for those another agent has stored to since the command (R64, log 7). -/
def landedBytes (s : State) : Nat → List Byte → List Byte
  | _, [] => []
  | a, b :: bs => landed s a b :: landedBytes s (a + 1) bs

/-- Memory after the engine has written the bytes `bs` at `a`, `a + 1`, ... (R61, R64). -/
abbrev engineStores (s : State) (a : Nat) (bs : List Byte) : Memory := writeBytes s.mem a (landedBytes s a bs)

/-- The overlap premise of R62 for an operation that writes `w` elements per group of `r` source elements: no group
writes an address of a source element that a later group reads. -/
def noLiveOverlap (s : State) (groups r w : Nat) : Prop :=
  ∀ k, k < groups → ∀ j, j < w → ∀ i, i < s.len.toNat → r * (k + 1) ≤ i →
    s.dst.toNat + (w * k + j) ≠ s.src.toNat + i

/-- An operation has just been issued and nothing but the engine moves (R33): BUSY on `i`, `K` and `RESULT` 0, no store
from outside since the command, no other `Owned` waiting. -/
def started (i : Instr) (s : State) : Prop :=
  decode s.cmd = .instr i ∧ s.status = ⟨.busy, .none⟩ ∧ s.k = 0 ∧ s.result = 0 ∧
    s.errpos = 0 ∧ s.errchar = 0 ∧ s.inputs = [] ∧ s.raced = [] ∧ s.ownedNext = none

/-! ### Reachable states -/

/-- How far a running operation has come (R28, R38): `K` bounded by the group count, `RESULT` the count of elements
written. -/
def progress (s : State) : Instr → Prop
  | .encsz => s.k.toNat = 0 ∧ s.result.toNat = 0
  | .enc => s.k.toNat ≤ binGroups s.len.toNat ∧ s.result.toNat = 4 * s.k.toNat
  | .decsz => s.k.toNat = 0 ∧ s.result.toNat = 0
  | .val => s.k.toNat ≤ textGroups s.len.toNat ∧ s.result.toNat = 0
  | .dec =>
    s.k.toNat ≤ textGroups s.len.toNat ∧
      (s.k.toNat < textGroups s.len.toNat → s.result.toNat = 3 * s.k.toNat) ∧
      s.result.toNat ≤ 3 * s.k.toNat ∧ 3 * s.k.toNat ≤ s.result.toNat + 2

/-- What holds in every state a run reaches. -/
structure Inv (s : State) : Prop where
  /-- The width is one the spec admits (R7). -/
  width : Width.wf s.xw = true
  /-- Memory keeps its canonical form. -/
  memWf : s.mem.wf = true
  /-- Memory lies in the address space (R50). -/
  memBelow : s.mem.below (2 ^ s.xw) = true
  /-- `ERR != NONE` exactly when `STATE = ERROR` (R27). -/
  coherent : s.status.coherent = true
  /-- ERRPOS and ERRCHAR read as 0 unless a FormatError is reported (R31). -/
  report : (∀ e, s.status.err ≠ .format e) → s.errpos = 0 ∧ s.errchar = 0
  /-- `ERRCHAR[XW-1:8]` reads as 0 (R31). -/
  errchar : s.errchar.toNat < 256
  /-- RESULT is 0 in ERROR (R25). -/
  errorResult : s.status.state = .error → s.result = 0
  /-- IDLE: no command has been issued since reset (R27). -/
  idle : s.status.state = .idle → s.cmd = 0 ∧ s.result = 0 ∧ s.k = 0
  /-- BUSY: the command is legal and the operation has come as far as `K` says (R33, R38). -/
  busy : s.status.state = .busy → ∃ i, decode s.cmd = .instr i ∧ progress s i
  /-- BUSY: the host has not seen the end of the operation (R63, R186). -/
  window : s.status.state = .busy → s.windows ≠ []

/-! ### Control flow and length of an operation (R160) -/

/-- The engine has the next turn: nothing else is pending, or the host lets it step or waits for it. -/
def engineNext (s : State) : Bool :=
  match s.inputs with
  | [] => true
  | .engine :: _ => true
  | .wait :: _ => true
  | _ => false

/-- The host writes CMD next. -/
def commandNext (s : State) : Bool :=
  match s.inputs with
  | .write 0 _ :: _ => true
  | _ => false

/-- Reset comes next. -/
def resetNext (s : State) : Bool :=
  match s.inputs with
  | .reset :: _ => true
  | .resetMidStep :: _ => true
  | _ => false

/-- The engine steps an operation takes at most, for `LEN = n` (R160, R195). -/
def stepBound (n : Nat) : Instr → Nat
  | .encsz => 1
  | .enc => binGroups n + 1
  | .decsz => 1
  | .val => textGroups n + 1
  | .dec => textGroups n + 1

/-- `n` steps of the machine, stopping at the first fault or refusal. -/
def runSteps (n : Nat) (s : State) : Host.Outcome State Fault Refusal := Host.Core.run Sys2Proof.core n s

/-- The run has left BUSY: it stopped, or the engine has ended its operation. -/
def leftBusy (o : Host.Outcome State Fault Refusal) : Prop :=
  match o with
  | .next t => t.status.state = .done ∨ t.status.state = .error
  | .fault _ => True
  | .refused _ => False

end Sys2Proof.Machine
end

