-- ==== Sys2Proof/Certificates/Slice0/Obligations.lean ====
section
/-! DEFINITION. The statements for the provers, by spec file: encodings and tables, the functions on one group and on
whole buffers, one engine step of each operation (where it completes, where it reports, where it stops), frames, the
host's moves and reset, the invariant, whole operations. -/

open Sys2Proof Sys2Proof.Machine

/-! ### Encodings and tables (30_encoding.md) -/

/-- The five command words of 30_encoding.md section 5 written out bit by bit for `XW = 32` (the table's encodings),
and illegal ones: the reserved codes, and V-CMD-5 and V-CMD-6 of 95_test_vectors.md section 7. -/
def Obligations.CommandWordsDecode : Prop :=
  decode (0b00000000000000000000000000000001#32) = .instr .encsz ∧
  decode (0b00000000000000000000000000000010#32) = .instr .enc ∧
  decode (0b00000000000000000000000000000011#32) = .instr .decsz ∧
  decode (0b00000000000000000000000000000100#32) = .instr .val ∧
  decode (0b00000000000000000000000000000101#32) = .instr .dec ∧
  decode (0b00000000000000000000000000000000#32) = .reject .reservedOp ∧
  decode (0b00000000000000000000000000000110#32) = .reject .reservedOp ∧
  decode (0b00000000000000000000000000000111#32) = .reject .reservedOp ∧
  decode (0b00000000000000000000000000010010#32) = .reject .reservedBits ∧
  decode (0b10000000000000000000000000000001#32) = .reject .reservedBits

/-- Decode and encode agree in both directions, for every width the spec admits and every command word: a word names
an operation exactly when it is that operation's code, zero-extended ("every bit is significant"). -/
def Obligations.DecodeExactlyEncode : Prop :=
  ∀ n, Config.minWidth ≤ n → ∀ (w : Word n) (i : Instr), decode w = .instr i ↔ w = encode n i

/-- Which command words are rejected and by which name: a bit set above bit 2, or else `OP` 0, 6 or 7. -/
def Obligations.DecodeRejectsIllegalWords : Prop :=
  ∀ n, Config.minWidth ≤ n → ∀ w : Word n,
    (decode w = .reject .reservedBits ↔ 8 ≤ w.toNat) ∧
    (decode w = .reject .reservedOp ↔ w.toNat = 0 ∨ w.toNat = 6 ∨ w.toNat = 7)

/-- The alphabet in closed form, injective, bit 7 always 0. The codes are ASCII, which the spec marks "[from general
knowledge, not in source]" (30_encoding.md section 2). -/
def Obligations.AlphabetClosedForm : Prop :=
  (∀ i : Sextet,
    (i.toNat ≤ 25 → (alphabet i).toNat = 0x41 + i.toNat) ∧
    (26 ≤ i.toNat → i.toNat ≤ 51 → (alphabet i).toNat = 0x61 + (i.toNat - 26)) ∧
    (52 ≤ i.toNat → i.toNat ≤ 61 → (alphabet i).toNat = 0x30 + (i.toNat - 52)) ∧
    (i.toNat = 62 → (alphabet i).toNat = 0x2B) ∧
    (i.toNat = 63 → (alphabet i).toNat = 0x2F) ∧
    (alphabet i).toNat < 0x80) ∧
  ∀ i j : Sextet, alphabet i = alphabet j → i = j

/-- The inverse table inverts the forward one: `Data(v)` exactly at `T[v]`, `Pad` exactly at 0x3D, everything else Bad.
The two laws are marked "[derived: ...]" in 30_encoding.md section 3. -/
def Obligations.CharClassInvertsAlphabet : Prop :=
  (∀ (c : Byte) (v : Sextet), charClass c = .data v ↔ alphabet v = c) ∧
  (∀ c : Byte, charClass c = .pad ↔ c = 0x3D) ∧
  (∀ c : Byte, charClass c = .bad ↔ c ≠ 0x3D ∧ ∀ v : Sextet, alphabet v ≠ c)

/-! ### One group (30_encoding.md section 4, 40_encoder.md section 3, 41_decoder.md sections 1, 3, 4) -/

/-- EncGroup lane by lane, each sextet written as the bits of the source bytes it is made of. The bit placement and
the zero fill of a partial group are marked "[from general knowledge, not in source]" (93 section 4, G1 and G2). -/
def Obligations.EncGroupLanes : Prop :=
  ∀ b0 b1 b2 : Byte,
    encGroup 3 b0 b1 b2 =
      ⟨alphabet (b0.extractLsb' 2 6), alphabet (b0.extractLsb' 0 2 ++ b1.extractLsb' 4 4),
        alphabet (b1.extractLsb' 0 4 ++ b2.extractLsb' 6 2), alphabet (b2.extractLsb' 0 6)⟩ ∧
    encGroup 2 b0 b1 b2 =
      ⟨alphabet (b0.extractLsb' 2 6), alphabet (b0.extractLsb' 0 2 ++ b1.extractLsb' 4 4),
        alphabet (b1.extractLsb' 0 4 ++ 0#2), 0x3D⟩ ∧
    encGroup 1 b0 b1 b2 =
      ⟨alphabet (b0.extractLsb' 2 6), alphabet (b0.extractLsb' 0 2 ++ 0#4), 0x3D, 0x3D⟩

/-- DecGroup on each shape, each byte written as the bits of the sextets it is made of, and nowhere else defined. The
bit placement is marked "[from general knowledge, not in source]" (93 section 4, G1). -/
def Obligations.DecGroupByShape : Prop :=
  (∀ v0 v1 v2 v3 : Sextet,
    decGroup ⟨alphabet v0, alphabet v1, alphabet v2, alphabet v3⟩ =
      some [v0 ++ v1.extractLsb' 4 2, v1.extractLsb' 0 4 ++ v2.extractLsb' 2 4, v2.extractLsb' 0 2 ++ v3] ∧
    decGroup ⟨alphabet v0, alphabet v1, alphabet v2, 0x3D⟩ =
      some [v0 ++ v1.extractLsb' 4 2, v1.extractLsb' 0 4 ++ v2.extractLsb' 2 4] ∧
    decGroup ⟨alphabet v0, alphabet v1, 0x3D, 0x3D⟩ = some [v0 ++ v1.extractLsb' 4 2]) ∧
  ∀ g : TextGroup, decGroup g = none ↔ ¬ (g.full = true ∨ g.pad1 = true ∨ g.pad2 = true)

/-- One group round trip: DecGroup gives back exactly the bytes that were present (1, 2 or 3 of them). -/
def Obligations.DecGroupInvertsEncGroup : Prop :=
  ∀ (m : Nat) (b0 b1 b2 : Byte), 1 ≤ m → m ≤ 3 → decGroup (encGroup m b0 b1 b2) = some ([b0, b1, b2].take m)

/-- ChkGroup returns the first offender or none (41_decoder.md R125): "It scans `j = 0, 1, 2, 3` in that order and
returns the first offender". -/
def Obligations.ChkGroupFirstOffender : Prop :=
  ∀ (last : Bool) (g : TextGroup),
    (chkGroup last g = none ↔ ∀ j, j < 4 → ¬ illegalAt last g j) ∧
    ∀ o : Offender, chkGroup last g = some o ↔
      o.pos < 4 ∧ illegalAt last g o.pos ∧ (∀ j, j < o.pos → ¬ illegalAt last g j) ∧
        ((charClass (g.get o.pos) = .bad ∧ o.code = .char ∧ o.ch = g.get o.pos) ∨
          (charClass (g.get o.pos) = .pad ∧ o.code = .pad ∧ o.ch = 0x3D))

/-- TrailPad (41_decoder.md R121): the length of the run of pads that ends the group; only the class Pad is tested. -/
def Obligations.TrailPadCountsFinalRun : Prop :=
  ∀ g : TextGroup, trailPad g = ([g.c3, g.c2, g.c1, g.c0].takeWhile fun c => decide (charClass c = .pad)).length

/-! ### Whole buffers (40_encoder.md section 4, 41_decoder.md sections 2 to 5) -/

/-- The size law and the length invariant of the encoder (40_encoder.md section 4, laws 1 and 2). -/
def Obligations.EncodedTextLength : Prop :=
  ∀ b : List Byte, (encText b).length = (b.length + 2) / 3 * 4 ∧ (encText b).length % 4 = 0

/-- The padding law and the alphabet law of the encoder (40_encoder.md section 4, laws 3 and 4): none, two or one
trailing pads by the length modulo 3, and a member of the alphabet at every position before them. -/
def Obligations.EncodedTextPadding : Prop :=
  ∀ b : List Byte,
    (b.length % 3 = 0 → trailingPads (encText b) = 0) ∧
    (b.length % 3 = 1 → trailingPads (encText b) = 2) ∧
    (b.length % 3 = 2 → trailingPads (encText b) = 1) ∧
    ∀ c ∈ (encText b).take ((encText b).length - trailingPads (encText b)), ∃ v : Sextet, c = alphabet v

/-- Validation accepts every string the encoder produces, the empty one included (41_decoder.md section 3, law 2). -/
def Obligations.EncodedTextIsValid : Prop :=
  ∀ b : List Byte, validText (encText b) = true

/-- Decoding is the exact left inverse of encoding, for every byte list of every length (41_decoder.md section 5,
law 1). It rests on the bit placement the spec marks as general knowledge (93 section 4, G1 and G2). -/
def Obligations.DecodeInvertsEncodeText : Prop :=
  ∀ b : List Byte, decText (encText b) = b

/-- Valid is the grammar of 30_encoding.md section 4: "`Valid(s)` holds exactly when `s` is well-formed". -/
def Obligations.ValidTextIsGrammar : Prop :=
  ∀ t : List Byte, validText t = true ↔ grammarText t

/-- The size agreement of the decoder (41_decoder.md section 5, law 2): at most two trailing pads, never more than the
bytes they are taken from, and the decoded length is DecSize of the length and their count. -/
def Obligations.DecodedTextLength : Prop :=
  ∀ t : List Byte, validText t = true →
    trailingPads t ≤ 2 ∧ trailingPads t ≤ t.length / 4 * 3 ∧ (decText t).length = decSize t.length (trailingPads t)

/-- Encoding a decoded valid string gives it back exactly when the bits DecGroup discards are zero (41_decoder.md
section 5, law 3). -/
def Obligations.EncodeInvertsDecodeText : Prop :=
  ∀ t : List Byte, validText t = true →
    (encText (decText t) = t ↔ ∀ k, k < textGroups t.length → discardsZero (groupAt t k) = true)

/-- DecSize of an encoded string is the length of its source (41_decoder.md section 5, law 4). -/
def Obligations.SizesAgree : Prop :=
  ∀ b : List Byte, trailingPads (encText b) ≤ (encText b).length / 4 * 3 ∧
    decSize (encText b).length (trailingPads (encText b)) = b.length

/-! ### One engine step: where each operation completes -/

/-- ENCSZ completes whenever the size fits: RESULT is the size, STATE is DONE, nothing else changes. -/
def Obligations.EncszCompletes : Prop :=
  ∀ s : State, (s.len.toNat + 2) / 3 * 4 < 2 ^ s.xw →
    exec .encsz s = .next { s with
      result := BitVec.ofNat s.xw ((s.len.toNat + 2) / 3 * 4)
      status := { s.status with state := .done } }

/-- ENCSZ overflow (40_encoder.md R102): the size is never taken modulo `2^XW`; a size that does not fit is
SIZE_OVERFLOW; the exact bound for every width, its value at the three widths the rule names, and the largest size and
the smallest violating length at `XW = 32`. -/
def Obligations.EncszOverflowBound : Prop :=
  (∀ s : State, exec .encsz s = .fault .sizeOverflow ↔ (2 ^ s.xw - 1) / 4 * 3 < s.len.toNat) ∧
  (∀ s : State, (2 ^ s.xw ≤ (s.len.toNat + 2) / 3 * 4) ↔ (2 ^ s.xw - 1) / 4 * 3 < s.len.toNat) ∧
  (2 ^ 32 - 1) / 4 * 3 = 3221225469 ∧ (2 ^ 16 - 1) / 4 * 3 = 49149 ∧
  (2 ^ 64 - 1) / 4 * 3 = 13835058055282163709 ∧
  (3221225469 + 2) / 3 * 4 = 4294967292 ∧ 4294967292 < 2 ^ 32 ∧ 2 ^ 32 ≤ (3221225470 + 2) / 3 * 4

/-- ENC's group step completes when the group's bytes may be read and its four characters written: the characters are
EncGroup of the bytes, at `DST + 4*K`; RESULT + 4, K + 1; every other byte of memory and everything else is as it
was. A byte another agent has stored to since the command is read, and left in memory, as any value (log 7). -/
def Obligations.EncGroupStepCompletes : Prop :=
  ∀ s : State, s.mem.wf = true →
    4 * ((s.len.toNat + 2) / 3) < 2 ^ s.xw →
    s.k.toNat < (s.len.toNat + 2) / 3 →
    (∀ j, j < min 3 (s.len.toNat - 3 * s.k.toNat) → SrcOk s (3 * s.k.toNat + j)) →
    (∀ j, j < 4 → DstOk s (4 * s.k.toNat + j)) →
    ∃ m : Memory,
      exec .enc s = .next { s with
        mem := m
        result := BitVec.ofNat s.xw (s.result.toNat + 4)
        k := BitVec.ofNat s.xw (s.k.toNat + 1) } ∧
      (∀ j, j < 4 → m.read (s.dst.toNat + (4 * s.k.toNat + j)) = landed s (s.dst.toNat + (4 * s.k.toNat + j))
        ((encGroup (min 3 (s.len.toNat - 3 * s.k.toNat)) (engineSees s (s.src.toNat + 3 * s.k.toNat))
          (engineSees s (s.src.toNat + (3 * s.k.toNat + 1)))
          (engineSees s (s.src.toNat + (3 * s.k.toNat + 2)))).get j)) ∧
      ∀ a, (∀ j, j < 4 → a ≠ s.dst.toNat + (4 * s.k.toNat + j)) → m.read a = s.mem.read a

/-- The finishing step of ENC (`K = G`), VAL and DEC (`K = Q`): STATE is DONE, no access is made and nothing else
changes; in particular with `LEN = 0` and null bases. -/
def Obligations.FinishingStepCompletes : Prop :=
  ∀ s : State,
    (4 * ((s.len.toNat + 2) / 3) < 2 ^ s.xw → s.k.toNat = (s.len.toNat + 2) / 3 →
      exec .enc s = .next { s with status := { s.status with state := .done } }) ∧
    (s.len.toNat % 4 = 0 → s.k.toNat = s.len.toNat / 4 →
      exec .val s = .next { s with status := { s.status with state := .done } } ∧
      exec .dec s = .next { s with status := { s.status with state := .done } })

/-- DECSZ completes on an empty string, and on every string of a length that is a multiple of 4 whose last group may
be read and ends in at most two pads: RESULT is DecSize, whatever the other characters are. -/
def Obligations.DecszCompletes : Prop :=
  (∀ s : State, s.len.toNat = 0 →
    exec .decsz s = .next { s with result := 0, status := { s.status with state := .done } }) ∧
  ∀ s : State, s.len.toNat % 4 = 0 → s.len.toNat ≠ 0 →
    (∀ j, j < 4 → SrcOk s (s.len.toNat - 4 + j)) →
    trailPad (sourceGroup s (s.len.toNat - 4)) ≤ 2 →
    exec .decsz s = .next { s with
      result := BitVec.ofNat s.xw (s.len.toNat / 4 * 3 - trailPad (sourceGroup s (s.len.toNat - 4)))
      status := { s.status with state := .done } }

/-- VAL's group step completes on a group that may be read and has no offender: K + 1 and nothing else changes. -/
def Obligations.ValGroupStepCompletes : Prop :=
  ∀ s : State, s.len.toNat % 4 = 0 → s.k.toNat ≠ s.len.toNat / 4 →
    (∀ j, j < 4 → SrcOk s (4 * s.k.toNat + j)) →
    (∀ j, j < 4 → ¬ illegalAt (decide (s.k.toNat + 1 = s.len.toNat / 4)) (sourceGroup s (4 * s.k.toNat)) j) →
    exec .val s = .next { s with k := BitVec.ofNat s.xw (s.k.toNat + 1) }

/-- DEC's group step completes on a group that may be read, has one of the three shapes (PAD1 and PAD2 in the last group
only) and whose bytes may be written: they are written at `DST + RESULT`; RESULT grows by their count, K by 1; every
other byte of memory and everything else is as it was. A byte another agent has stored to since the command is read,
and left in memory, as any value (log 7). -/
def Obligations.DecGroupStepCompletes : Prop :=
  ∀ (s : State) (bs : List Byte), s.mem.wf = true →
    s.len.toNat % 4 = 0 → s.k.toNat ≠ s.len.toNat / 4 →
    (∀ j, j < 4 → SrcOk s (4 * s.k.toNat + j)) →
    decGroup (sourceGroup s (4 * s.k.toNat)) = some bs →
    (s.k.toNat + 1 = s.len.toNat / 4 ∨ (sourceGroup s (4 * s.k.toNat)).full = true) →
    (∀ t, t < bs.length → DstOk s (s.result.toNat + t)) →
    ∃ m : Memory,
      exec .dec s = .next { s with
        mem := m
        result := BitVec.ofNat s.xw (s.result.toNat + bs.length)
        k := BitVec.ofNat s.xw (s.k.toNat + 1) } ∧
      (∀ t, t < bs.length → m.read (s.dst.toNat + (s.result.toNat + t)) =
        landed s (s.dst.toNat + (s.result.toNat + t)) (bs.getD t 0)) ∧
      ∀ a, (∀ t, t < bs.length → a ≠ s.dst.toNat + (s.result.toNat + t)) → m.read a = s.mem.read a

/-! ### One engine step: where it reports a FormatError -/

/-- DECSZ reports a bad length (at `LEN`, character 0, whatever SRC is) and a run of three or four pads that ends the
last group (at `LEN - p`, character 0x3D). -/
def Obligations.DecszReportsFormatErrors : Prop :=
  (∀ s : State, s.len.toNat % 4 ≠ 0 →
    exec .decsz s = .next { s with
      status := ⟨.error, .format .length⟩, errpos := s.len, errchar := 0, result := 0 }) ∧
  ∀ s : State, s.len.toNat % 4 = 0 → s.len.toNat ≠ 0 →
    (∀ j, j < 4 → SrcOk s (s.len.toNat - 4 + j)) →
    3 ≤ trailPad (sourceGroup s (s.len.toNat - 4)) →
    exec .decsz s = .next { s with
      status := ⟨.error, .format .pad⟩
      errpos := BitVec.ofNat s.xw (s.len.toNat - trailPad (sourceGroup s (s.len.toNat - 4)))
      errchar := BitVec.ofNat s.xw 0x3D
      result := 0 }

/-- VAL reports a bad length before it reads any character, and else the first offender of its group, its position
counted from the start of the string. -/
def Obligations.ValReportsFormatErrors : Prop :=
  (∀ s : State, s.len.toNat % 4 ≠ 0 →
    exec .val s = .next { s with
      status := ⟨.error, .format .length⟩, errpos := s.len, errchar := 0, result := 0 }) ∧
  ∀ (s : State) (j : Nat), s.len.toNat % 4 = 0 → s.k.toNat ≠ s.len.toNat / 4 →
    (∀ i, i < 4 → SrcOk s (4 * s.k.toNat + i)) → j < 4 →
    illegalAt (decide (s.k.toNat + 1 = s.len.toNat / 4)) (sourceGroup s (4 * s.k.toNat)) j →
    (∀ i, i < j → ¬ illegalAt (decide (s.k.toNat + 1 = s.len.toNat / 4)) (sourceGroup s (4 * s.k.toNat)) i) →
    exec .val s = .next { s with
      status := ⟨.error, .format
        (if charClass (sourceByte s (4 * s.k.toNat + j)) = .bad then .char else .pad)⟩
      errpos := BitVec.ofNat s.xw (4 * s.k.toNat + j)
      errchar := (sourceByte s (4 * s.k.toNat + j)).setWidth s.xw
      result := 0 }

/-- Whatever operation enters ERROR: it is DECSZ or VAL; the report is in STATUS, ERRPOS and ERRCHAR, RESULT is 0, and
memory, `K` and every operand are as they were. -/
def Obligations.FormatErrorEntry : Prop :=
  ∀ (i : Instr) (s t : State), s.status.state = .busy → exec i s = .next t → t.status.state = .error →
    (i = .decsz ∨ i = .val) ∧
    ∃ o : Offender, t = { s with
      status := ⟨.error, .format o.code⟩
      errpos := BitVec.ofNat s.xw o.pos
      errchar := o.ch.setWidth s.xw
      result := 0 }

/-! ### One engine step: where it stops (60_exceptions.md section 3) -/

/-- The three preconditions of a read and of a write and the reason each gives; an access that meets them reads or
replaces that one byte. The order in which the preconditions are tested when several fail is the model's (log 6), and so
is the free value of a byte that another agent has stored to since the command (log 7). -/
def Obligations.AccessFaultReasons : Prop :=
  ∀ (s : State) (i : Nat) (m : Memory) (b : Byte),
    (2 ^ s.xw ≤ s.src.toNat + i → readSrc s i = .error .addrRange) ∧
    (s.src.toNat + i < 2 ^ s.xw → s.src.toNat = 0 → readSrc s i = .error .nullBase) ∧
    (s.src.toNat + i < 2 ^ s.xw → s.src.toNat ≠ 0 → ownedAddr s.owned (s.src.toNat + i) = false →
      readSrc s i = .error .outOfBounds) ∧
    (SrcOk s i → raceAt s (s.src.toNat + i) = none → readSrc s i = .ok (s.mem.read (s.src.toNat + i))) ∧
    (SrcOk s i → ∀ n, raceAt s (s.src.toNat + i) = some n → readSrc s i = .ok (Config.racedRead n)) ∧
    (2 ^ s.xw ≤ s.dst.toNat + i → writeDst s m i b = .error .addrRange) ∧
    (s.dst.toNat + i < 2 ^ s.xw → s.dst.toNat = 0 → writeDst s m i b = .error .nullBase) ∧
    (s.dst.toNat + i < 2 ^ s.xw → s.dst.toNat ≠ 0 → ownedAddr s.owned (s.dst.toNat + i) = false →
      writeDst s m i b = .error .outOfBounds) ∧
    (DstOk s i → raceAt s (s.dst.toNat + i) = none → writeDst s m i b = .ok (m.write (s.dst.toNat + i) b)) ∧
    (DstOk s i → ∀ n, raceAt s (s.dst.toNat + i) = some n →
      writeDst s m i b = .ok (m.write (s.dst.toNat + i) (Config.racedByte n)))

/-- ENC stops on a size that does not fit, on a null source or destination with a group to process, and on a
destination the caller does not own. -/
def Obligations.EncStopsOnViolations : Prop :=
  ∀ s : State,
    (2 ^ s.xw ≤ 4 * ((s.len.toNat + 2) / 3) → exec .enc s = .fault .sizeOverflow) ∧
    (4 * ((s.len.toNat + 2) / 3) < 2 ^ s.xw → s.k.toNat < (s.len.toNat + 2) / 3 →
      (s.src.toNat = 0 → exec .enc s = .fault .nullBase) ∧
      ((∀ j, j < min 3 (s.len.toNat - 3 * s.k.toNat) → SrcOk s (3 * s.k.toNat + j)) →
        (s.dst.toNat = 0 → exec .enc s = .fault .nullBase) ∧
        (s.dst.toNat ≠ 0 → s.dst.toNat + 4 * s.k.toNat < 2 ^ s.xw →
          ownedAddr s.owned (s.dst.toNat + 4 * s.k.toNat) = false → exec .enc s = .fault .outOfBounds)))

/-- DEC on a string that is not valid: MALFORMED on a bad length, on a group of no shape, and on a padded group that is
not the last one. It never reports a FormatError. -/
def Obligations.DecStopsOnMalformed : Prop :=
  (∀ s : State, s.len.toNat % 4 ≠ 0 → exec .dec s = .fault .malformed) ∧
  ∀ s : State, s.len.toNat % 4 = 0 → s.k.toNat ≠ s.len.toNat / 4 →
    (∀ j, j < 4 → SrcOk s (4 * s.k.toNat + j)) →
    (∃ j, j < 4 ∧ illegalAt (decide (s.k.toNat + 1 = s.len.toNat / 4)) (sourceGroup s (4 * s.k.toNat)) j) →
    exec .dec s = .fault .malformed

/-! ### Frames -/

/-- ENCSZ, DECSZ and VAL store nothing: every byte of memory reads as before; ENCSZ changes RESULT and STATE only, DECSZ
and VAL at most STATUS, RESULT, ERRPOS and ERRCHAR, and VAL `K`; on the way to DONE or to the next group no error
field changes. -/
def Obligations.ReadOnlyOperationsFrame : Prop :=
  ∀ s t : State,
    (exec .encsz s = .next t →
      (∀ a, t.mem.read a = s.mem.read a) ∧
      ∃ r, t = { s with result := r, status := { s.status with state := .done } }) ∧
    (exec .decsz s = .next t →
      (∀ a, t.mem.read a = s.mem.read a) ∧
      ((∃ r, t = { s with result := r, status := { s.status with state := .done } }) ∨
        ∃ e p c, t = { s with status := ⟨.error, .format e⟩, errpos := p, errchar := c, result := 0 })) ∧
    (exec .val s = .next t →
      (∀ a, t.mem.read a = s.mem.read a) ∧
      ((∃ k, t = { s with k := k }) ∨ t = { s with status := { s.status with state := .done } } ∨
        ∃ e p c, t = { s with status := ⟨.error, .format e⟩, errpos := p, errchar := c, result := 0 }))

/-- ENC's frame: its finishing step stores nothing; its group step stores the four bytes from `DST + 4*K` upward and no
other byte of memory changes; beside memory only RESULT, K and STATE may change. -/
def Obligations.EncFrame : Prop :=
  ∀ s t : State, s.mem.wf = true → exec .enc s = .next t →
    (∃ st r k m, t = { s with status := { s.status with state := st }, result := r, k := k, mem := m }) ∧
    (s.k.toNat = binGroups s.len.toNat → ∀ a, t.mem.read a = s.mem.read a) ∧
    (s.k.toNat ≠ binGroups s.len.toNat → t.status = s.status ∧
      ∀ a, (∀ j, j < 4 → a ≠ s.dst.toNat + encElement s + j) → t.mem.read a = s.mem.read a)

/-- DEC's frame: its finishing step stores nothing; its group step stores as many bytes as DecGroup gives, from
`DST + RESULT` upward, and no other byte of memory changes; beside memory only RESULT, K and STATE may change. -/
def Obligations.DecFrame : Prop :=
  ∀ s t : State, s.mem.wf = true → exec .dec s = .next t →
    (∃ st r k m, t = { s with status := { s.status with state := st }, result := r, k := k, mem := m }) ∧
    (s.k.toNat = textGroups s.len.toNat → ∀ a, t.mem.read a = s.mem.read a) ∧
    (s.k.toNat ≠ textGroups s.len.toNat → t.status = s.status ∧
      ∀ bs, decGroup (sourceGroup s (4 * s.k.toNat)) = some bs →
        ∀ a, (∀ j, j < bs.length → a ≠ s.dst.toNat + decElement s + j) → t.mem.read a = s.mem.read a)

/-- DECSZ and VAL read the source range and nothing else: with any memory that agrees on it they do the same. -/
def Obligations.ReadOnlyOperationsReadTheSource : Prop :=
  ∀ (s : State) (m : Memory), s.k.toNat ≤ textGroups s.len.toNat →
    (∀ i, i < s.len.toNat → m.read (s.src.toNat + i) = s.mem.read (s.src.toNat + i)) →
    (∀ t, exec .decsz s = .next t → exec .decsz { s with mem := m } = .next { t with mem := m }) ∧
    (∀ t, exec .val s = .next t → exec .val { s with mem := m } = .next { t with mem := m }) ∧
    (∀ r, exec .decsz s = .fault r → exec .decsz { s with mem := m } = .fault r) ∧
    (∀ r, exec .val s = .fault r → exec .val { s with mem := m } = .fault r)

/-! ### The host and reset (10_state.md sections 5, 8, 70_reset_and_hazards.md section 1) -/

/-- Command issue (10_state.md R33): one atomic action, from IDLE, DONE and ERROR alike; a word with a bit above bit 2
or with `OP` 0, 6 or 7 becomes ILLEGAL_OP, any other starts its operation. Beside the block's registers
only the model's own record of `Owned` and of the open buffers may change (FetchWordRunsTheCommand says how); `Owned`
stays where the caller has set no other. These last clauses are the model's choice (logs 3 and 7), not R33's. -/
def Obligations.CommandIssue : Prop :=
  ∀ (s : State) (v : Word s.xw) (rest : List (Move s.xw)), Config.minWidth ≤ s.xw →
    s.status.state ≠ .busy → s.inputs = .write 0 v :: rest →
    ∃ (own : List Region) (own' : Option (List Region)) (ws : List Window) (rs : List (Nat × Nat)),
      step s = .next { s with
        inputs := rest
        cmd := v
        k := 0
        result := 0
        errpos := 0
        errchar := 0
        status :=
          if v.toNat / 8 ≠ 0 ∨ v.toNat % 8 = 0 ∨ v.toNat % 8 = 6 ∨ v.toNat % 8 = 7 then ⟨.error, .illegalOp⟩
          else ⟨.busy, .none⟩
        owned := own
        ownedNext := own'
        windows := ws
        raced := rs } ∧
      (s.ownedNext = none → own = s.owned)

/-- Operand writes while not BUSY (10_state.md R34): register 1, 2 or 3 takes all bits of the value and nothing else
changes. -/
def Obligations.OperandWrites : Prop :=
  ∀ (s : State) (v : Word s.xw) (rest : List (Move s.xw)), s.status.state ≠ .busy →
    (s.inputs = .write 1 v :: rest → step s = .next { s with inputs := rest, src := v }) ∧
    (s.inputs = .write 2 v :: rest → step s = .next { s with inputs := rest, len := v }) ∧
    (s.inputs = .write 3 v :: rest → step s = .next { s with inputs := rest, dst := v })

/-- Host writes while BUSY (10_state.md section 5): to CMD, SRC, LEN and DST they change nothing at all, but for the
move itself being used up. -/
def Obligations.BusyWritesIgnored : Prop :=
  ∀ (s : State) (i : Nat) (v : Word s.xw) (rest : List (Move s.xw)), s.status.state = .busy → i ≤ 3 →
    s.inputs = .write i v :: rest → step s = .next { s with inputs := rest }

/-- Host writes to the read-only registers 4 to 7 (10_state.md R36) are ignored in every state. -/
def Obligations.ReadOnlyWritesIgnored : Prop :=
  ∀ (s : State) (i : Nat) (v : Word s.xw) (rest : List (Move s.xw)), 4 ≤ i → i ≤ 7 →
    s.inputs = .write i v :: rest → step s = .next { s with inputs := rest }

/-- Host reads: register `i` gives its current value in any state and changes nothing of the block (10_state.md section 5);
a load of buffer memory gives the byte memory holds (20_memory.md section 8). The rest is the model's: above 7 it declines
(log 9), what was read goes to a log of its own (log 5); it is a read of STATUS showing the end that closes the buffers
of an operation, and of a destination byte of one still open the load sees one of the contents since the issue, or, where
another agent has stored, any value (log 7). -/
def Obligations.HostReads : Prop :=
  ∀ (s : State) (rest : List (Move s.xw)),
    (∀ i v, s.inputs = .read i :: rest →
      [s.cmd, s.src, s.len, s.dst, statusWord s.xw s.status, s.result, s.errpos, s.errchar][i]? = some v →
      step s = .next { s with
        inputs := rest
        observed := .reg i v :: s.observed
        windows := if i = 4 ∧ s.status.state ≠ .busy then [] else s.windows
        raced := if i = 4 ∧ s.status.state ≠ .busy then [] else s.raced }) ∧
    (∀ i, s.inputs = .read i :: rest → 7 < i → step s = .refused (.unmappedRegister i)) ∧
    (∀ a, s.inputs = .load a :: rest → (∀ w ∈ s.windows, w.dst.has a.toNat = false) →
      step s = .next { s with inputs := rest, observed := .byte a (s.mem.read a.toNat) :: s.observed }) ∧
    ∀ a, s.inputs = .load a :: rest → (∃ w ∈ s.windows, w.dst.has a.toNat = true) →
      ∃ b, step s = .next { s with
          inputs := rest, observed := .byte a b :: s.observed, freeCount := s.freeCount + 1 } ∧
        ((∀ w ∈ s.windows, w.dst.has a.toNat = true → a.toNat ∉ w.hits) →
          b = s.mem.read a.toNat ∨ ∃ w ∈ s.windows, w.dst.has a.toNat = true ∧ b = w.old.read a.toNat)

/-- The STATUS word (10_state.md section 4): STATE in bits 1:0, ERR in bits 4:2 with the codes of R27's table, all
other bits 0, for every width the spec admits. -/
def Obligations.StatusWordLayout : Prop :=
  ∀ n, Config.minWidth ≤ n → ∀ st : Status,
    (statusWord n st).toNat % 4 = (match st.state with | .idle => 0 | .busy => 1 | .done => 2 | .error => 3) ∧
    (statusWord n st).toNat / 4 = (match st.err with
      | .none => 0 | .format .length => 1 | .format .char => 2 | .format .pad => 3 | .illegalOp => 4)

/-- A store to buffer memory from outside the engine never touches another byte. Off the buffers of an operation whose
end the host has not seen, it replaces the byte and the engine will read it. On them it is a race, which the model
admits (log 7): the engine reads that byte as any value, and off the destination ranges memory holds what was stored.
After a command issued with no other operation open, those buffers are its source range and the most its destination
range can be. -/
def Obligations.OutsideStores : Prop :=
  ∀ (s : State) (a : Word s.xw) (b : Byte),
    (∀ rest : List (Move s.xw), s.mem.wf = true → s.inputs = .store a b :: rest →
      (contested s a.toNat = false → raceAt s a.toNat = none → ∃ m : Memory,
        step s = .next { s with inputs := rest, mem := m } ∧
          m.read a.toNat = b ∧ engineSees { s with inputs := rest, mem := m } a.toNat = b ∧
          ∀ x, x ≠ a.toNat → m.read x = s.mem.read x) ∧
      (contested s a.toNat = true → ∃ t : State, step s = .next t ∧
        (∃ m ws, t = { s with
          inputs := rest, mem := m, windows := ws, raced := (a.toNat, s.freeCount) :: s.raced
          freeCount := s.freeCount + 1 }) ∧
        engineSees t a.toNat = Config.racedRead s.freeCount ∧
        (inDest t.windows a.toNat = false → t.mem.read a.toNat = b) ∧
        ∀ x, x ≠ a.toNat → t.mem.read x = s.mem.read x ∧ engineSees t x = engineSees s x)) ∧
    ∀ (v : Word s.xw) (i : Instr), s.windows = [] → decode v = .instr i →
      (contested (issueCommand s v) a.toNat = true ↔
        (sourceRange s i).has a.toNat = true ∨ (destMost s i).has a.toNat = true)

/-- Reset between steps (70_reset_and_hazards.md R180, R182): every register and `K` become 0, IDLE and NONE, from any
state; buffer memory is neither read nor written. The engine then has no step (10_state.md R37); that its turn answers
the same state is the model's rendering of that (log 4, a DESIGN CHOICE: an idle block stutters). -/
def Obligations.ResetClearsTheBlock : Prop :=
  ∀ (s : State) (rest : List (Move s.xw)), s.inputs = .reset :: rest →
    step s = .next { s with
      inputs := rest, cmd := 0, src := 0, len := 0, dst := 0, status := ⟨.idle, .none⟩, result := 0, errpos := 0,
      errchar := 0, k := 0 } ∧
    ∀ t : State, step s = .next t → statusWord t.xw t.status = 0 ∧ engineTurn t = .next t

/-- The state after reset (10_state.md R41): every register 0, and STATUS reads as 0. -/
def Obligations.ResetStateValues : Prop :=
  (∀ i, i < 8 → regValue State.reset i = some 0) ∧ State.reset.k = 0 ∧
    State.reset.status = ⟨.idle, .none⟩

/-- Reset inside a step (70_reset_and_hazards.md section 1): the registers are as after any reset, and each byte of
memory is its old one or the one the step was writing. It holds for EVERY value of the free choice (log 8). -/
def Obligations.ResetInsideAStep : Prop :=
  ∀ (s t : State) (i : Instr) (rest : List (Move s.xw)), s.mem.wf = true →
    s.inputs = .resetMidStep :: rest → s.status.state = .busy → decode s.cmd = .instr i →
    exec i { s with inputs := rest } = .next t →
    ∃ (m : Memory) (c : Nat),
      step s = .next { s with
        inputs := rest, cmd := 0, src := 0, len := 0, dst := 0, status := ⟨.idle, .none⟩, result := 0, errpos := 0,
        errchar := 0, k := 0, mem := m, freeCount := c } ∧
      ∀ a, m.read a = s.mem.read a ∨ m.read a = t.mem.read a

/-! ### Control flow (60_exceptions.md section 6) -/

/-- A step runs the decoded instruction: when the engine has the next turn and CMD decodes to `i`, the step is `exec i`.
How the engine comes to have the turn is the model's choice, not the spec's: that it has every turn when no move is left
(`inputs = []`) and that the move of letting it step is used up are log 4's; that a WAIT is kept, no read of STATUS being
recorded while BUSY, is log 16's. -/
def Obligations.StepRunsTheCommand : Prop :=
  ∀ (s : State) (i : Instr), s.status.state = .busy → decode s.cmd = .instr i →
    (s.inputs = [] → step s = exec i s) ∧
    (∀ rest, s.inputs = .engine :: rest → step s = exec i { s with inputs := rest }) ∧
    (∀ rest, s.inputs = .wait :: rest → step s = exec i s)

/-- Launching a command word is its issue: the next step is that operation's first (log 14). The clauses on the moves, on
`Owned` and on the open buffers are the model's (logs 14, 3 and 7). -/
def Obligations.FetchWordRunsTheCommand : Prop :=
  ∀ (s : State) (w : Nat) (i : Instr), Config.minWidth ≤ s.xw → w < 2 ^ 32 → w < 2 ^ s.xw →
    decode (BitVec.ofNat s.xw w) = .instr i →
    step (s.withFetchWord 32 w) = exec i (s.withFetchWord 32 w) ∧
    s.withFetchWord 32 w = { s with
      inputs := [], cmd := BitVec.ofNat s.xw w, status := ⟨.busy, .none⟩, k := 0, result := 0, errpos := 0,
      errchar := 0, owned := s.ownedNext.getD s.owned, ownedNext := none, raced := []
      windows := ⟨sourceRange s i, destRange s i, destMost s i, padRange s i, s.mem, []⟩ :: s.windows }

/-- The engine has a step exactly when BUSY (10_state.md R37: in IDLE, DONE and ERROR it has none). That a step of the
MODEL in such a state answers the same state, the turn passing unused, is the model's rendering of "no step" (log 4, a
DESIGN CHOICE: an idle block stutters), not a sentence of the spec. -/
def Obligations.EngineIdlesUnlessBusy : Prop :=
  ∀ s : State, s.status.state ≠ .busy →
    (s.inputs = [] → step s = .next s) ∧
    (∀ rest, s.inputs = .engine :: rest → step s = .next { s with inputs := rest })

/-- The whole of the control flow: STATE changes only by a command issued while not BUSY (to BUSY or ERROR), by an
engine step while BUSY (to DONE or ERROR), or by reset (to IDLE). -/
def Obligations.ControlFlowTransitions : Prop :=
  ∀ s t : State, step s = .next t →
    t.status.state = s.status.state ∨
    (commandNext s = true ∧ s.status.state ≠ .busy ∧ (t.status.state = .busy ∨ t.status.state = .error)) ∨
    (engineNext s = true ∧ s.status.state = .busy ∧ (t.status.state = .done ∨ t.status.state = .error)) ∨
    (resetNext s = true ∧ t.status.state = .idle)

/-! ### Invariants -/

/-- The reset state meets the invariant. -/
def Obligations.InvariantAtReset : Prop := Inv State.reset

/-- Every step, of the engine, of the host or of reset, keeps the invariant: memory canonical and inside the address
space, STATUS coherent, reports 0 unless an error is reported, RESULT 0 in ERROR, IDLE clean, and in BUSY a legal
command with `K` within its group count, RESULT the count of elements written and its buffers still open to the host's
view (log 7). -/
def Obligations.StepKeepsInvariant : Prop :=
  ∀ s t : State, Inv s → step s = .next t → Inv t

/-- What RESULT holds when an operation of a reachable state ends in DONE: ENCSZ and ENC the encoded size, DECSZ
DecSize, VAL 0, DEC the elements written, within the last group's three. -/
def Obligations.ResultWhenDone : Prop :=
  ∀ (i : Instr) (s t : State), Inv s → s.status.state = .busy → decode s.cmd = .instr i →
    exec i s = .next t → t.status.state = .done →
    match i with
    | .encsz => t.result.toNat = encSize s.len.toNat
    | .enc => t.result.toNat = encSize s.len.toNat
    | .decsz => s.len.toNat % 4 = 0 ∧
      (s.len.toNat = 0 → t.result.toNat = 0) ∧
      (s.len.toNat ≠ 0 → t.result.toNat = decSize s.len.toNat (trailPad (sourceGroup s (s.len.toNat - 4))))
    | .val => t.result.toNat = 0
    | .dec => t.result.toNat ≤ decSize s.len.toNat 0 ∧ decSize s.len.toNat 2 ≤ t.result.toNat

/-! ### Whole operations -/

/-- ENC as a function (40_encoder.md section 4): under its preconditions and the overlap premise it ends in DONE after
`G + 1` steps with `Enc(source)` in the destination, `RESULT = 4*G`, and no other byte of memory changed. -/
def Obligations.EncodeRun : Prop :=
  ∀ s : State, started .enc s → s.mem.wf = true →
    4 * binGroups s.len.toNat < 2 ^ s.xw →
    (∀ i, i < s.len.toNat → SrcOk s i) →
    (∀ j, j < 4 * binGroups s.len.toNat → DstOk s j) →
    noLiveOverlap s (binGroups s.len.toNat) 3 4 →
    ∃ m : Memory,
      runSteps (binGroups s.len.toNat + 1) s = .next { s with
        mem := m
        k := BitVec.ofNat s.xw (binGroups s.len.toNat)
        result := BitVec.ofNat s.xw (4 * binGroups s.len.toNat)
        status := ⟨.done, .none⟩ } ∧
      bytesAt m s.dst.toNat (4 * binGroups s.len.toNat) = encText (sourceBytes s) ∧
      ∀ a, (∀ j, j < 4 * binGroups s.len.toNat → a ≠ s.dst.toNat + j) → m.read a = s.mem.read a

/-- VAL as a function (41_decoder.md section 3): it ends in DONE after `Q + 1` steps exactly when the string is valid,
and otherwise, within that many steps, in ERROR with the first offender of the string; memory and every operand are as
they were. With a bad length nothing is assumed of the source. -/
def Obligations.ValidateRun : Prop :=
  ∀ s : State, started .val s → (s.len.toNat % 4 = 0 → ∀ i, i < s.len.toNat → SrcOk s i) →
    (validText (sourceBytes s) = true →
      runSteps (textGroups s.len.toNat + 1) s = .next { s with
        k := BitVec.ofNat s.xw (textGroups s.len.toNat), status := ⟨.done, .none⟩ }) ∧
    (validText (sourceBytes s) = false →
      ∃ o n k, firstOffender (sourceBytes s) = some o ∧ n ≤ textGroups s.len.toNat + 1 ∧
        runSteps n s = .next { s with
          k := k
          status := ⟨.error, .format o.code⟩
          errpos := BitVec.ofNat s.xw o.pos
          errchar := o.ch.setWidth s.xw })

/-- DEC as a function (41_decoder.md section 5): on a valid string, under its preconditions and the overlap premise, it
ends in DONE after `Q + 1` steps with `Dec(source)` in the destination, RESULT its length, and no other byte of memory
changed. -/
def Obligations.DecodeRun : Prop :=
  ∀ s : State, started .dec s → s.mem.wf = true → validText (sourceBytes s) = true →
    (∀ i, i < s.len.toNat → SrcOk s i) →
    (∀ j, j < (decText (sourceBytes s)).length → DstOk s j) →
    noLiveOverlap s (textGroups s.len.toNat) 4 3 →
    ∃ m : Memory,
      runSteps (textGroups s.len.toNat + 1) s = .next { s with
        mem := m
        k := BitVec.ofNat s.xw (textGroups s.len.toNat)
        result := BitVec.ofNat s.xw (decText (sourceBytes s)).length
        status := ⟨.done, .none⟩ } ∧
      bytesAt m s.dst.toNat (decText (sourceBytes s)).length = decText (sourceBytes s) ∧
      ∀ a, (∀ j, j < (decText (sourceBytes s)).length → a ≠ s.dst.toNat + j) → m.read a = s.mem.read a

/-- DECSZ on a valid string gives exactly the length of what DEC writes; the destination range of a DEC of a valid string
(20_memory.md section 1) is never shorter, and under the overlap premise (section 7) has exactly that length. -/
def Obligations.DecodedSizeIsExact : Prop :=
  (∀ s : State, started .decsz s → validText (sourceBytes s) = true →
    (∀ i, i < s.len.toNat → SrcOk s i) →
    step s = .next { s with
      result := BitVec.ofNat s.xw (decText (sourceBytes s)).length
      status := ⟨.done, .none⟩ }) ∧
  ∀ s : State, s.mem.wf = true → validText (sourceBytes s) = true →
    (destRange s .dec).base = s.dst.toNat ∧ (decText (sourceBytes s)).length ≤ (destRange s .dec).size ∧
    (noLiveOverlap s (textGroups s.len.toNat) 4 3 → (destRange s .dec).size = (decText (sourceBytes s)).length)

/-- Decoding in place is safe (20_memory.md section 7): with `DST <= SRC + 1` the overlap premise of DEC holds. -/
def Obligations.InPlaceDecodeMeetsThePremise : Prop :=
  ∀ s : State, s.dst.toNat ≤ s.src.toNat + 1 → noLiveOverlap s (textGroups s.len.toNat) 4 3

/-- Every operation of a reachable state, left to the engine, leaves BUSY within the bound of 60_exceptions.md section 6:
in DONE, in ERROR, or by a fault. -/
def Obligations.OperationsEnd : Prop :=
  ∀ (s : State) (i : Instr), Inv s → s.status.state = .busy → decode s.cmd = .instr i → s.inputs = [] →
    ∃ n, n ≤ stepBound s.len.toNat i ∧ leftBusy (runSteps n s)

/-- Validation is idempotent (41_decoder.md section 3, law 4): a VAL that has ended, issued again, ends in the same
state after as many steps, whether the string is valid or not. Only the model's own list of open buffers (log 7) has the
second operation's too. -/
def Obligations.ValidateIsIdempotent : Prop :=
  ∀ (s t : State) (n : Nat), started .val s → runSteps n s = .next t → t.status.state ≠ .busy →
    runSteps n (issueCommand t t.cmd) = .next { t with windows := (issueCommand t t.cmd).windows }

/-- No operation depends on what an earlier one left (00_scope.md R6): a command issued over any leftover registers gives
the same state. -/
def Obligations.CommandForgetsThePast : Prop :=
  ∀ (s : State) (v c r p e k : Word s.xw) (st : Status), s.status.state ≠ .busy → st.state ≠ .busy →
    hostWrite { s with cmd := c, status := st, result := r, errpos := p, errchar := e, k := k } 0 v =
      hostWrite s 0 v
end

