-- ==== Sys2Proof/Laws/State.lean ====
section
/-! SUPPORT. One lemma per field for each named update of State, all true by `rfl`, so that no later proof unfolds
an update. -/

namespace Sys2Proof.Machine

section Finish
variable (s : State)
@[simp] theorem finish_xw : (finish s).xw = s.xw := rfl
@[simp] theorem finish_cmd : (finish s).cmd = s.cmd := rfl
@[simp] theorem finish_src : (finish s).src = s.src := rfl
@[simp] theorem finish_len : (finish s).len = s.len := rfl
@[simp] theorem finish_dst : (finish s).dst = s.dst := rfl
@[simp] theorem finish_status : (finish s).status = ⟨.done, s.status.err⟩ := rfl
@[simp] theorem finish_result : (finish s).result = s.result := rfl
@[simp] theorem finish_errpos : (finish s).errpos = s.errpos := rfl
@[simp] theorem finish_errchar : (finish s).errchar = s.errchar := rfl
@[simp] theorem finish_k : (finish s).k = s.k := rfl
@[simp] theorem finish_mem : (finish s).mem = s.mem := rfl
@[simp] theorem finish_owned : (finish s).owned = s.owned := rfl
@[simp] theorem finish_ownedNext : (finish s).ownedNext = s.ownedNext := rfl
@[simp] theorem finish_windows : (finish s).windows = s.windows := rfl
@[simp] theorem finish_raced : (finish s).raced = s.raced := rfl
@[simp] theorem finish_inputs : (finish s).inputs = s.inputs := rfl
@[simp] theorem finish_observed : (finish s).observed = s.observed := rfl
@[simp] theorem finish_freeCount : (finish s).freeCount = s.freeCount := rfl
end Finish

section Advance
variable (s : State) (c : Nat)
@[simp] theorem advance_xw : (advance s c).xw = s.xw := rfl
@[simp] theorem advance_cmd : (advance s c).cmd = s.cmd := rfl
@[simp] theorem advance_src : (advance s c).src = s.src := rfl
@[simp] theorem advance_len : (advance s c).len = s.len := rfl
@[simp] theorem advance_dst : (advance s c).dst = s.dst := rfl
@[simp] theorem advance_status : (advance s c).status = s.status := rfl
@[simp] theorem advance_result : (advance s c).result = BitVec.ofNat s.xw (s.result.toNat + c) := rfl
@[simp] theorem advance_errpos : (advance s c).errpos = s.errpos := rfl
@[simp] theorem advance_errchar : (advance s c).errchar = s.errchar := rfl
@[simp] theorem advance_k : (advance s c).k = BitVec.ofNat s.xw (s.k.toNat + 1) := rfl
@[simp] theorem advance_mem : (advance s c).mem = s.mem := rfl
@[simp] theorem advance_owned : (advance s c).owned = s.owned := rfl
@[simp] theorem advance_ownedNext : (advance s c).ownedNext = s.ownedNext := rfl
@[simp] theorem advance_windows : (advance s c).windows = s.windows := rfl
@[simp] theorem advance_raced : (advance s c).raced = s.raced := rfl
@[simp] theorem advance_inputs : (advance s c).inputs = s.inputs := rfl
@[simp] theorem advance_observed : (advance s c).observed = s.observed := rfl
@[simp] theorem advance_freeCount : (advance s c).freeCount = s.freeCount := rfl
end Advance

section Raise
variable (s : State) (o : Offender)
@[simp] theorem raiseFormatError_xw : (raiseFormatError s o).xw = s.xw := rfl
@[simp] theorem raiseFormatError_cmd : (raiseFormatError s o).cmd = s.cmd := rfl
@[simp] theorem raiseFormatError_src : (raiseFormatError s o).src = s.src := rfl
@[simp] theorem raiseFormatError_len : (raiseFormatError s o).len = s.len := rfl
@[simp] theorem raiseFormatError_dst : (raiseFormatError s o).dst = s.dst := rfl
@[simp] theorem raiseFormatError_status : (raiseFormatError s o).status = ⟨.error, .format o.code⟩ := rfl
@[simp] theorem raiseFormatError_result : (raiseFormatError s o).result = 0 := rfl
@[simp] theorem raiseFormatError_errpos : (raiseFormatError s o).errpos = BitVec.ofNat s.xw o.pos := rfl
@[simp] theorem raiseFormatError_errchar : (raiseFormatError s o).errchar = o.ch.setWidth s.xw := rfl
@[simp] theorem raiseFormatError_k : (raiseFormatError s o).k = s.k := rfl
@[simp] theorem raiseFormatError_mem : (raiseFormatError s o).mem = s.mem := rfl
@[simp] theorem raiseFormatError_owned : (raiseFormatError s o).owned = s.owned := rfl
@[simp] theorem raiseFormatError_ownedNext : (raiseFormatError s o).ownedNext = s.ownedNext := rfl
@[simp] theorem raiseFormatError_windows : (raiseFormatError s o).windows = s.windows := rfl
@[simp] theorem raiseFormatError_raced : (raiseFormatError s o).raced = s.raced := rfl
@[simp] theorem raiseFormatError_inputs : (raiseFormatError s o).inputs = s.inputs := rfl
@[simp] theorem raiseFormatError_observed : (raiseFormatError s o).observed = s.observed := rfl
@[simp] theorem raiseFormatError_freeCount : (raiseFormatError s o).freeCount = s.freeCount := rfl
end Raise

section Issue
variable (s : State) (v : Word s.xw)
@[simp] theorem issueCommand_xw : (issueCommand s v).xw = s.xw := rfl
@[simp] theorem issueCommand_cmd : (issueCommand s v).cmd = v := rfl
@[simp] theorem issueCommand_src : (issueCommand s v).src = s.src := rfl
@[simp] theorem issueCommand_len : (issueCommand s v).len = s.len := rfl
@[simp] theorem issueCommand_dst : (issueCommand s v).dst = s.dst := rfl
@[simp] theorem issueCommand_result : (issueCommand s v).result = 0 := rfl
@[simp] theorem issueCommand_errpos : (issueCommand s v).errpos = 0 := rfl
@[simp] theorem issueCommand_errchar : (issueCommand s v).errchar = 0 := rfl
@[simp] theorem issueCommand_k : (issueCommand s v).k = 0 := rfl
@[simp] theorem issueCommand_mem : (issueCommand s v).mem = s.mem := rfl
@[simp] theorem issueCommand_owned : (issueCommand s v).owned = s.ownedNext.getD s.owned := rfl
@[simp] theorem issueCommand_ownedNext : (issueCommand s v).ownedNext = none := rfl
@[simp] theorem issueCommand_windows : (issueCommand s v).windows = openWindows s (decode v) := rfl
@[simp] theorem issueCommand_raced : (issueCommand s v).raced = [] := rfl
@[simp] theorem issueCommand_inputs : (issueCommand s v).inputs = s.inputs := rfl
@[simp] theorem issueCommand_observed : (issueCommand s v).observed = s.observed := rfl
@[simp] theorem issueCommand_freeCount : (issueCommand s v).freeCount = s.freeCount := rfl

theorem issueCommand_status_legal {i : Instr} (h : decode v = .instr i) :
    (issueCommand s v).status = ⟨.busy, .none⟩ := by
  simp only [issueCommand, h]

theorem issueCommand_status_illegal {r : Reject} (h : decode v = .reject r) :
    (issueCommand s v).status = ⟨.error, .illegalOp⟩ := by
  simp only [issueCommand, h]
end Issue

section Reset
variable (s : State)
@[simp] theorem resetBlock_xw : (resetBlock s).xw = s.xw := rfl
@[simp] theorem resetBlock_cmd : (resetBlock s).cmd = 0 := rfl
@[simp] theorem resetBlock_src : (resetBlock s).src = 0 := rfl
@[simp] theorem resetBlock_len : (resetBlock s).len = 0 := rfl
@[simp] theorem resetBlock_dst : (resetBlock s).dst = 0 := rfl
@[simp] theorem resetBlock_status : (resetBlock s).status = ⟨.idle, .none⟩ := rfl
@[simp] theorem resetBlock_result : (resetBlock s).result = 0 := rfl
@[simp] theorem resetBlock_errpos : (resetBlock s).errpos = 0 := rfl
@[simp] theorem resetBlock_errchar : (resetBlock s).errchar = 0 := rfl
@[simp] theorem resetBlock_k : (resetBlock s).k = 0 := rfl
@[simp] theorem resetBlock_mem : (resetBlock s).mem = s.mem := rfl
@[simp] theorem resetBlock_owned : (resetBlock s).owned = s.owned := rfl
@[simp] theorem resetBlock_ownedNext : (resetBlock s).ownedNext = s.ownedNext := rfl
@[simp] theorem resetBlock_windows : (resetBlock s).windows = s.windows := rfl
@[simp] theorem resetBlock_raced : (resetBlock s).raced = s.raced := rfl
@[simp] theorem resetBlock_inputs : (resetBlock s).inputs = s.inputs := rfl
@[simp] theorem resetBlock_observed : (resetBlock s).observed = s.observed := rfl
@[simp] theorem resetBlock_freeCount : (resetBlock s).freeCount = s.freeCount := rfl
end Reset

end Sys2Proof.Machine
end

