-- ==== Sys2Proof/Laws/Memory.lean ====
section
/-! SUPPORT. Buffer memory: a read after a write, the canonical form kept by every operation, equal contents are equal
lists. -/

namespace Sys2Proof.Machine

/-- Nothing is listed below the bound of the canonical form. -/
theorem Memory.read_of_lt {m : Memory} {lo a : Nat} (h : Memory.wfFrom lo m = true) (ha : a < lo) :
    m.read a = Config.unlistedByte := by
  induction m generalizing lo with
  | nil => rfl
  | cons c rest ih =>
    obtain ⟨a', b'⟩ := c
    simp only [Memory.wfFrom, Bool.and_eq_true, decide_eq_true_eq] at h
    have hne : a ≠ a' := by omega
    simp only [Memory.read, if_neg hne]
    exact ih h.2 (by omega)

/-- The canonical form above a bound holds above every smaller one. -/
theorem Memory.wfFrom_mono {m : Memory} {lo hi : Nat} (h : Memory.wfFrom hi m = true) (hle : lo ≤ hi) :
    Memory.wfFrom lo m = true := by
  cases m with
  | nil => rfl
  | cons c rest =>
    simp only [Memory.wfFrom, Bool.and_eq_true, decide_eq_true_eq] at h ⊢
    exact ⟨⟨by omega, h.1.2⟩, h.2⟩

theorem Memory.wfFrom_put {rest : Memory} {lo a : Nat} {b : Byte} (h : Memory.wfFrom (a + 1) rest = true)
    (ha : lo ≤ a) : Memory.wfFrom lo (Memory.put a b rest) = true := by
  unfold Memory.put
  split
  · exact Memory.wfFrom_mono h (by omega)
  · rename_i hb
    simp [Memory.wfFrom, ha, hb, h]

theorem Memory.read_put_same {rest : Memory} {a : Nat} {b : Byte} (h : Memory.wfFrom (a + 1) rest = true) :
    (Memory.put a b rest).read a = b := by
  unfold Memory.put
  split
  · rename_i hb
    rw [Memory.read_of_lt h (by omega), hb]
  · simp [Memory.read]

theorem Memory.read_put_ne {rest : Memory} {a c : Nat} {b : Byte} (hne : c ≠ a) :
    (Memory.put a b rest).read c = rest.read c := by
  unfold Memory.put
  split
  · rfl
  · simp [Memory.read, hne]

/-- A write keeps the canonical form. -/
theorem Memory.wfFrom_write {m : Memory} {lo a : Nat} (b : Byte) (h : Memory.wfFrom lo m = true) (ha : lo ≤ a) :
    Memory.wfFrom lo (m.write a b) = true := by
  induction m generalizing lo with
  | nil => exact Memory.wfFrom_put (by rfl) ha
  | cons c rest ih =>
    obtain ⟨a', b'⟩ := c
    have h' := h
    simp only [Memory.wfFrom, Bool.and_eq_true, decide_eq_true_eq] at h'
    simp only [Memory.write]
    split
    · refine Memory.wfFrom_put ?_ ha
      simp only [Memory.wfFrom, Bool.and_eq_true, decide_eq_true_eq]
      exact ⟨⟨by omega, h'.1.2⟩, h'.2⟩
    · split
      · rename_i _ heq
        subst heq
        exact Memory.wfFrom_put h'.2 ha
      · simp only [Memory.wfFrom, Bool.and_eq_true, decide_eq_true_eq]
        exact ⟨h'.1, ih h'.2 (by omega)⟩

theorem Memory.wf_write {m : Memory} (a : Nat) (b : Byte) (h : m.wf = true) : (m.write a b).wf = true :=
  Memory.wfFrom_write b h (Nat.zero_le a)

theorem Memory.read_write_from {m : Memory} {lo : Nat} (a c : Nat) (b : Byte) (h : Memory.wfFrom lo m = true) :
    (m.write a b).read c = if c = a then b else m.read c := by
  induction m generalizing lo with
  | nil =>
    simp only [Memory.write]
    by_cases hc : c = a
    · subst hc
      simp [Memory.read_put_same (rest := []) (a := c) (b := b) (by rfl)]
    · simp [hc, Memory.read_put_ne hc]
  | cons x rest ih =>
    obtain ⟨a', b'⟩ := x
    have h' := h
    simp only [Memory.wfFrom, Bool.and_eq_true, decide_eq_true_eq] at h'
    simp only [Memory.write]
    split
    · by_cases hc : c = a
      · subst hc
        rw [if_pos rfl]
        refine Memory.read_put_same ?_
        simp only [Memory.wfFrom, Bool.and_eq_true, decide_eq_true_eq]
        exact ⟨⟨by omega, h'.1.2⟩, h'.2⟩
      · rw [if_neg hc, Memory.read_put_ne hc]
    · split
      · rename_i _ heq
        subst heq
        by_cases hc : c = a
        · subst hc
          rw [if_pos rfl]
          exact Memory.read_put_same h'.2
        · rw [if_neg hc, Memory.read_put_ne hc]
          simp [Memory.read, hc]
      · simp only [Memory.read]
        by_cases hc : c = a'
        · subst hc
          have hca : ¬ c = a := by omega
          simp [hca]
        · rw [if_neg hc, if_neg hc]
          exact ih h'.2

/-- A read after a write (20_memory.md rules R52, R53). -/
theorem Memory.read_write {m : Memory} (a c : Nat) (b : Byte) (h : m.wf = true) :
    (m.write a b).read c = if c = a then b else m.read c :=
  Memory.read_write_from a c b h

theorem Memory.below_put {rest : Memory} {bound a : Nat} {b : Byte} (h : rest.below bound = true)
    (ha : a < bound ∨ b = Config.unlistedByte) : (Memory.put a b rest).below bound = true := by
  unfold Memory.put
  split
  · exact h
  · rename_i hb
    have hlt : a < bound := ha.resolve_right hb
    simp only [Memory.below, List.all_cons, Bool.and_eq_true, decide_eq_true_eq]
    exact ⟨hlt, h⟩

/-- A write below the bound, or of the byte an unlisted address reads as, keeps memory below the bound. -/
theorem Memory.below_write {m : Memory} {bound a : Nat} {b : Byte} (h : m.below bound = true)
    (ha : a < bound ∨ b = Config.unlistedByte) : (m.write a b).below bound = true := by
  induction m with
  | nil => exact Memory.below_put h ha
  | cons c rest ih =>
    obtain ⟨a', b'⟩ := c
    have h' := h
    simp only [Memory.below, List.all_cons, Bool.and_eq_true, decide_eq_true_eq] at h'
    simp only [Memory.write]
    split
    · exact Memory.below_put h ha
    · split
      · exact Memory.below_put h'.2 ha
      · simp only [Memory.below, List.all_cons, Bool.and_eq_true, decide_eq_true_eq]
        exact ⟨h'.1, ih h'.2⟩

/-- Beyond the bound every address reads as unlisted. -/
theorem Memory.read_of_below {m : Memory} {bound a : Nat} (h : m.below bound = true) (ha : bound ≤ a) :
    m.read a = Config.unlistedByte := by
  induction m with
  | nil => rfl
  | cons c rest ih =>
    obtain ⟨a', b'⟩ := c
    simp only [Memory.below, List.all_cons, Bool.and_eq_true, decide_eq_true_eq] at h
    have hne : a ≠ a' := by omega
    simp only [Memory.read, if_neg hne]
    exact ih h.2

/-- Memories in canonical form with the same contents are the same list. -/
theorem Memory.ext_of_read_from {m m' : Memory} {lo : Nat} (h : Memory.wfFrom lo m = true)
    (h' : Memory.wfFrom lo m' = true) (hr : ∀ a, m.read a = m'.read a) : m = m' := by
  induction m generalizing m' lo with
  | nil =>
    cases m' with
    | nil => rfl
    | cons c rest =>
      obtain ⟨a, b⟩ := c
      simp only [Memory.wfFrom, Bool.and_eq_true, decide_eq_true_eq] at h'
      have h1 := hr a
      simp only [Memory.read, if_pos] at h1
      exact absurd h1.symm h'.1.2
  | cons c rest ih =>
    obtain ⟨a, b⟩ := c
    have hc := h
    simp only [Memory.wfFrom, Bool.and_eq_true, decide_eq_true_eq] at hc
    cases m' with
    | nil =>
      have h1 := hr a
      simp only [Memory.read, if_pos] at h1
      exact absurd h1 hc.1.2
    | cons c' rest' =>
      obtain ⟨a', b'⟩ := c'
      have hc' := h'
      simp only [Memory.wfFrom, Bool.and_eq_true, decide_eq_true_eq] at hc'
      have hab : a = a' := by
        rcases Nat.lt_trichotomy a a' with hlt | heq | hgt
        · have h1 := hr a
          have hne : ¬ a = a' := by omega
          simp only [Memory.read, if_pos, if_neg hne] at h1
          rw [Memory.read_of_lt hc'.2 (by omega)] at h1
          exact absurd h1 hc.1.2
        · exact heq
        · have h1 := hr a'
          have hne : ¬ a' = a := by omega
          simp only [Memory.read, if_pos, if_neg hne] at h1
          rw [Memory.read_of_lt hc.2 (by omega)] at h1
          exact absurd h1.symm hc'.1.2
      subst hab
      have hb : b = b' := by
        have h1 := hr a
        simpa only [Memory.read, if_pos] using h1
      subst hb
      have hrest : rest = rest' := by
        refine ih hc.2 hc'.2 fun x => ?_
        by_cases hx : x = a
        · subst hx
          rw [Memory.read_of_lt hc.2 (by omega), Memory.read_of_lt hc'.2 (by omega)]
        · have h1 := hr x
          simpa only [Memory.read, if_neg hx] using h1
      rw [hrest]

theorem Memory.ext_of_read {m m' : Memory} (h : m.wf = true) (h' : m'.wf = true)
    (hr : ∀ a, m.read a = m'.read a) : m = m' :=
  Memory.ext_of_read_from h h' hr

/-! ### Runs of writes -/

theorem writeBytes_wf {m : Memory} (bs : List Byte) (a : Nat) (h : m.wf = true) :
    (writeBytes m a bs).wf = true := by
  induction bs generalizing m a with
  | nil => exact h
  | cons b bs ih => exact ih (a + 1) (Memory.wf_write a b h)

/-- What memory reads as after a run of writes: the bytes written, everything else as before. -/
theorem read_writeBytes {m : Memory} (bs : List Byte) (a c : Nat) (h : m.wf = true) :
    (writeBytes m a bs).read c = if a ≤ c ∧ c < a + bs.length then bs.getD (c - a) 0 else m.read c := by
  induction bs generalizing m a with
  | nil =>
    simp [writeBytes]
  | cons b bs ih =>
    rw [writeBytes, ih (a + 1) (Memory.wf_write a b h), Memory.read_write a c b h]
    by_cases hca : c = a
    · subst hca
      simp
    · by_cases hin : a + 1 ≤ c ∧ c < a + 1 + bs.length
      · have h2 : a ≤ c ∧ c < a + (b :: bs).length := by simp only [List.length_cons]; omega
        obtain ⟨d, hd⟩ : ∃ d, c - a = d + 1 := ⟨c - a - 1, by omega⟩
        have hd' : c - (a + 1) = d := by omega
        rw [if_pos hin, if_pos h2, hd, hd', List.getD_cons_succ]
      · have h2 : ¬ (a ≤ c ∧ c < a + (b :: bs).length) := by simp only [List.length_cons]; omega
        rw [if_neg hin, if_neg h2, if_neg hca]

theorem writeBytes_below {m : Memory} {bound : Nat} (bs : List Byte) (a : Nat) (h : m.below bound = true)
    (ha : a + bs.length ≤ bound) : (writeBytes m a bs).below bound = true := by
  induction bs generalizing m a with
  | nil => exact h
  | cons b bs ih =>
    simp only [List.length_cons] at ha
    exact ih (a + 1) (Memory.below_write h (Or.inl (by omega))) (by omega)

end Sys2Proof.Machine
end

