-- ==== Sys2Proof/Laws/Access.lean ====
section
/-! SUPPORT. What the engine's accesses answer: once for each shared operation, when it succeeds and what it gives, and
that success is the only way to that answer. -/

namespace Sys2Proof.Machine

/-- An access has no fault exactly when R52's (R53's) three preconditions hold. -/
theorem accessFault_eq_none_iff (s : State) (base : Word s.xw) (i : Nat) :
    accessFault s base i = none ↔
      base.toNat + i < 2 ^ s.xw ∧ base.toNat ≠ Config.nullAddr ∧ ownedAddr s.owned (base.toNat + i) = true := by
  unfold accessFault
  split
  · simp; omega
  · split
    · rename_i _ h; simp [h]
    · split
      · rename_i h1 h2 h3; simp at h3; simp [h3]
      · rename_i h1 h2 h3
        simp at h3
        simp only [true_iff]
        exact ⟨by omega, h2, h3⟩

theorem readSrc_ok {s : State} {i : Nat} (h : SrcOk s i) : readSrc s i = .ok (sourceByte s i) := by
  unfold readSrc
  rw [(accessFault_eq_none_iff s s.src i).2 h]
  rfl

theorem readSrc_eq_ok_iff {s : State} {i : Nat} {b : Byte} :
    readSrc s i = .ok b ↔ SrcOk s i ∧ b = sourceByte s i := by
  constructor
  · intro h
    unfold readSrc at h
    split at h
    · cases h
    · rename_i hn
      cases h
      exact ⟨(accessFault_eq_none_iff s s.src i).1 hn, rfl⟩
  · rintro ⟨h, rfl⟩
    exact readSrc_ok h

theorem writeDst_ok {s : State} {m : Memory} {i : Nat} {b : Byte} (h : DstOk s i) :
    writeDst s m i b = .ok (m.write (s.dst.toNat + i) (landed s (s.dst.toNat + i) b)) := by
  unfold writeDst
  rw [(accessFault_eq_none_iff s s.dst i).2 h]

theorem writeDst_eq_ok {s : State} {m m' : Memory} {i : Nat} {b : Byte} (h : writeDst s m i b = .ok m') :
    DstOk s i ∧ m' = m.write (s.dst.toNat + i) (landed s (s.dst.toNat + i) b) := by
  unfold writeDst at h
  split at h
  · cases h
  · rename_i hn
    cases h
    exact ⟨(accessFault_eq_none_iff s s.dst i).1 hn, rfl⟩

/-- Without a race at `a` the engine reads what memory holds. -/
theorem engineSees_of_no_race {s : State} {a : Nat} (h : raceAt s a = none) : engineSees s a = s.mem.read a := by
  simp only [engineSees, h]

/-- Without a race at `a` what the engine writes is what memory holds. -/
theorem landed_of_no_race {s : State} {a : Nat} (h : raceAt s a = none) (b : Byte) : landed s a b = b := by
  simp only [landed, h]

theorem raceAt_of_raced_nil {s : State} (h : s.raced = []) (a : Nat) : raceAt s a = none := by
  simp [raceAt, h]

theorem landedBytes_length (s : State) (a : Nat) (bs : List Byte) : (landedBytes s a bs).length = bs.length := by
  induction bs generalizing a with
  | nil => rfl
  | cons b bs ih => simp [landedBytes, ih]

theorem landedBytes_getD (s : State) (a : Nat) {bs : List Byte} {j : Nat} (h : j < bs.length) :
    (landedBytes s a bs).getD j 0 = landed s (a + j) (bs.getD j 0) := by
  induction bs generalizing a j with
  | nil => simp at h
  | cons b bs ih =>
    cases j with
    | zero => rfl
    | succ j =>
      simp only [landedBytes, List.getD_cons_succ]
      rw [ih (a + 1) (by simpa using h), show a + 1 + j = a + (j + 1) by omega]

/-- Any byte of memory after the engine has written a group. -/
theorem read_engineStores {s : State} (a : Nat) (bs : List Byte) (x : Nat) (hwf : s.mem.wf = true) :
    (engineStores s a bs).read x = if a ≤ x ∧ x < a + bs.length then landed s x (bs.getD (x - a) 0) else s.mem.read x := by
  rw [read_writeBytes _ _ _ hwf, landedBytes_length]
  split
  · rw [landedBytes_getD s a (by omega), show a + (x - a) = x by omega]
  · rfl

/-- Without races a run of writes lands as it is written. -/
theorem landedBytes_of_raced_nil {s : State} (h : s.raced = []) (a : Nat) (bs : List Byte) :
    landedBytes s a bs = bs := by
  induction bs generalizing a with
  | nil => rfl
  | cons b bs ih => rw [landedBytes, ih, landed_of_no_race (raceAt_of_raced_nil h a)]

/-- The writes of a group, all addresses allowed: they happen in order. -/
theorem writeDstRun_ok {s : State} {m : Memory} {i : Nat} {bs : List Byte}
    (h : ∀ j, j < bs.length → DstOk s (i + j)) :
    writeDstRun s m i bs = .ok (writeBytes m (s.dst.toNat + i) (landedBytes s (s.dst.toNat + i) bs)) := by
  induction bs generalizing m i with
  | nil => rfl
  | cons b bs ih =>
    have h0 : DstOk s i := by simpa using h 0 (by simp)
    have hs : ∀ j, j < bs.length → DstOk s (i + 1 + j) := fun j hj => by
      have := h (j + 1) (by simpa using hj)
      rwa [show i + (j + 1) = i + 1 + j by omega] at this
    rw [writeDstRun, writeDst_ok h0]
    exact ih hs

/-- The only way a group's writes succeed. -/
theorem writeDstRun_eq_ok {s : State} {m m' : Memory} {i : Nat} {bs : List Byte}
    (h : writeDstRun s m i bs = .ok m') :
    (∀ j, j < bs.length → DstOk s (i + j)) ∧ m' = writeBytes m (s.dst.toNat + i) (landedBytes s (s.dst.toNat + i) bs) := by
  induction bs generalizing m i with
  | nil =>
    cases h
    exact ⟨fun j hj => absurd hj (by simp), rfl⟩
  | cons b bs ih =>
    rw [writeDstRun] at h
    split at h
    · cases h
    · rename_i m1 h1
      obtain ⟨hd, rfl⟩ := writeDst_eq_ok h1
      obtain ⟨hs, rfl⟩ := ih h
      refine ⟨fun j hj => ?_, rfl⟩
      cases j with
      | zero => exact hd
      | succ j =>
        have := hs j (by simpa using hj)
        rwa [show i + 1 + j = i + (j + 1) by omega] at this

/-- A text group all of whose characters may be read. -/
theorem gatherChars_ok {s : State} {i : Nat} (h : ∀ j, j < 4 → SrcOk s (i + j)) :
    gatherChars s i = .ok (sourceGroup s i) := by
  have h0 := readSrc_ok (h 0 (by omega))
  have h1 := readSrc_ok (h 1 (by omega))
  have h2 := readSrc_ok (h 2 (by omega))
  have h3 := readSrc_ok (h 3 (by omega))
  rw [Nat.add_zero] at h0
  simp only [gatherChars, h0, h1, h2, h3, sourceGroup]

theorem gatherChars_eq_ok {s : State} {i : Nat} {g : TextGroup} (h : gatherChars s i = .ok g) :
    (∀ j, j < 4 → SrcOk s (i + j)) ∧ g = sourceGroup s i := by
  unfold gatherChars at h
  split at h
  · cases h
  · rename_i c0 h0
    split at h
    · cases h
    · rename_i c1 h1
      split at h
      · cases h
      · rename_i c2 h2
        split at h
        · cases h
        · rename_i c3 h3
          cases h
          rw [readSrc_eq_ok_iff] at h0 h1 h2 h3
          refine ⟨fun j hj => ?_, by simp [sourceGroup, h0.2, h1.2, h2.2, h3.2]⟩
          match j, hj with
          | 0, _ => exact h0.1
          | 1, _ => exact h1.1
          | 2, _ => exact h2.1
          | 3, _ => exact h3.1

/-- The reads of an ENC group of `m` bytes, `m` at least 1. -/
theorem gatherBytes_ok {s : State} {m i : Nat} (hm : 1 ≤ m) (h : ∀ j, j < m → SrcOk s (i + j)) :
    gatherBytes s m i =
      .ok (sourceByte s i, if 2 ≤ m then sourceByte s (i + 1) else 0, if m = 3 then sourceByte s (i + 2) else 0) := by
  have h0 := readSrc_ok (h 0 (by omega))
  rw [Nat.add_zero] at h0
  have h1 : (if 2 ≤ m then readSrc s (i + 1) else .ok 0) = .ok (if 2 ≤ m then sourceByte s (i + 1) else 0) := by
    split
    · exact readSrc_ok (h 1 (by omega))
    · rfl
  have h2 : (if m = 3 then readSrc s (i + 2) else .ok 0) = .ok (if m = 3 then sourceByte s (i + 2) else 0) := by
    split
    · exact readSrc_ok (h 2 (by omega))
    · rfl
  simp only [gatherBytes, h0, h1, h2]

theorem gatherBytes_eq_ok {s : State} {m i : Nat} {b0 b1 b2 : Byte} (h : gatherBytes s m i = .ok (b0, b1, b2)) :
    (SrcOk s i ∧ (2 ≤ m → SrcOk s (i + 1)) ∧ (m = 3 → SrcOk s (i + 2))) ∧ b0 = sourceByte s i ∧
      b1 = (if 2 ≤ m then sourceByte s (i + 1) else 0) ∧ b2 = (if m = 3 then sourceByte s (i + 2) else 0) := by
  unfold gatherBytes at h
  split at h
  · cases h
  · rename_i c0 h0
    split at h
    · cases h
    · rename_i c1 h1
      split at h
      · cases h
      · rename_i c2 h2
        cases h
        rw [readSrc_eq_ok_iff] at h0
        have k1 : (2 ≤ m → SrcOk s (i + 1)) ∧ b1 = (if 2 ≤ m then sourceByte s (i + 1) else 0) := by
          split at h1
          · rename_i hm
            rw [readSrc_eq_ok_iff] at h1
            exact ⟨fun _ => h1.1, by rw [if_pos hm, h1.2]⟩
          · rename_i hm
            cases h1
            exact ⟨fun hh => absurd hh hm, by rw [if_neg hm]⟩
        have k2 : (m = 3 → SrcOk s (i + 2)) ∧ b2 = (if m = 3 then sourceByte s (i + 2) else 0) := by
          split at h2
          · rename_i hm
            rw [readSrc_eq_ok_iff] at h2
            exact ⟨fun _ => h2.1, by rw [if_pos hm, h2.2]⟩
          · rename_i hm
            cases h2
            exact ⟨fun hh => absurd hh hm, by rw [if_neg hm]⟩
        exact ⟨⟨h0.1, k1.1, k2.1⟩, h0.2, k1.2, k2.2⟩

/-- EncGroup does not look at the bytes its group does not have (R103). -/
theorem encGroup_absent (m : Nat) (b0 b1 b2 : Byte) :
    encGroup m b0 (if 2 ≤ m then b1 else 0) (if m = 3 then b2 else 0) = encGroup m b0 b1 b2 := by
  unfold encGroup
  by_cases h2 : 2 ≤ m <;> by_cases h3 : m = 3 <;> simp [h2, h3]

end Sys2Proof.Machine
end

