-- ==== Sys2Proof/Laws/Steps.lean ====
section
/-! SUPPORT. What an engine step can do, said once per operation: the cases in which `exec` answers a next state, and
what that state is; how `step` reaches `exec`; and what the host's accesses can do. -/

namespace Sys2Proof.Machine

theorem execEncsz_eq_next {s t : State} (h : execEncsz s = .next t) :
    encSize s.len.toNat < 2 ^ s.xw ∧ t = finish { s with result := BitVec.ofNat s.xw (encSize s.len.toNat) } := by
  unfold execEncsz at h
  split at h
  · cases h
  · cases h
    exact ⟨by omega, rfl⟩

/-- The group step of ENC: reads, EncGroup, writes, advance. -/
theorem encGroupStep_eq_next {s t : State} (h : encGroupStep s = .next t) :
    SrcOk s (3 * s.k.toNat) ∧ (∀ j, j < 4 → DstOk s (encElement s + j)) ∧
      t = advance { s with mem := engineStores s (s.dst.toNat + encElement s) (encGroupOf s).toList } 4 := by
  unfold encGroupStep at h
  simp only at h
  split at h
  · cases h
  · rename_i b0 b1 b2 hg
    obtain ⟨⟨hs, -, -⟩, rfl, rfl, rfl⟩ := gatherBytes_eq_ok hg
    split at h
    · cases h
    · rename_i m hw
      cases h
      rw [encGroup_absent] at hw
      obtain ⟨hd, rfl⟩ := writeDstRun_eq_ok hw
      exact ⟨hs, hd, rfl⟩

/-- The group step of ENC succeeds when its bytes may be read and its characters written. -/
theorem encGroupStep_ok {s : State} (hm : 1 ≤ groupBytes s.len.toNat s.k.toNat)
    (hs : ∀ j, j < groupBytes s.len.toNat s.k.toNat → SrcOk s (3 * s.k.toNat + j))
    (hd : ∀ j, j < 4 → DstOk s (encElement s + j)) :
    encGroupStep s =
      .next (advance { s with mem := engineStores s (s.dst.toNat + encElement s) (encGroupOf s).toList } 4) := by
  unfold encGroupStep
  simp only [gatherBytes_ok hm hs, encGroup_absent]
  rw [writeDstRun_ok (by simpa [TextGroup.toList] using hd)]
  rfl

/-- All that ENC's step can do. -/
theorem execEnc_eq_next {s t : State} (h : execEnc s = .next t) :
    4 * binGroups s.len.toNat < 2 ^ s.xw ∧
      ((s.k.toNat = binGroups s.len.toNat ∧ t = finish s) ∨
        (s.k.toNat ≠ binGroups s.len.toNat ∧ SrcOk s (3 * s.k.toNat) ∧ (∀ j, j < 4 → DstOk s (encElement s + j)) ∧
          t = advance { s with mem := engineStores s (s.dst.toNat + encElement s) (encGroupOf s).toList } 4)) := by
  unfold execEnc at h
  split at h
  · cases h
  · rename_i hfit
    refine ⟨by omega, ?_⟩
    split at h
    · rename_i hk
      cases h
      exact .inl ⟨hk, rfl⟩
    · rename_i hk
      exact .inr ⟨hk, encGroupStep_eq_next h⟩

/-- All that DECSZ's step can do. -/
theorem execDecsz_eq_next {s t : State} (h : execDecsz s = .next t) :
    (s.len.toNat % 4 ≠ 0 ∧ t = raiseFormatError s (lengthOffender s.len.toNat)) ∨
      (s.len.toNat = 0 ∧ t = finish { s with result := 0 }) ∨
        (s.len.toNat % 4 = 0 ∧ s.len.toNat ≠ 0 ∧ (∀ j, j < 4 → SrcOk s (s.len.toNat - 4 + j)) ∧
          ((3 ≤ trailPad (sourceGroup s (s.len.toNat - 4)) ∧
              t = raiseFormatError s ⟨.pad, s.len.toNat - trailPad (sourceGroup s (s.len.toNat - 4)), padChar⟩) ∨
            (trailPad (sourceGroup s (s.len.toNat - 4)) < 3 ∧
              t = finish { s with
                result := BitVec.ofNat s.xw (decSize s.len.toNat (trailPad (sourceGroup s (s.len.toNat - 4)))) }))) := by
  unfold execDecsz at h
  simp only at h
  split at h
  · rename_i hl
    cases h
    exact .inl ⟨hl, rfl⟩
  · rename_i hl
    split at h
    · rename_i h0
      cases h
      exact .inr (.inl ⟨h0, rfl⟩)
    · rename_i h0
      split at h
      · cases h
      · rename_i g hg
        obtain ⟨hr, rfl⟩ := gatherChars_eq_ok hg
        refine .inr (.inr ⟨by omega, h0, hr, ?_⟩)
        split at h
        · rename_i hp
          cases h
          exact .inl ⟨hp, rfl⟩
        · rename_i hp
          cases h
          exact .inr ⟨by omega, rfl⟩

/-- All that VAL's step can do. -/
theorem execVal_eq_next {s t : State} (h : execVal s = .next t) :
    (s.len.toNat % 4 ≠ 0 ∧ t = raiseFormatError s (lengthOffender s.len.toNat)) ∨
      (s.len.toNat % 4 = 0 ∧ s.k.toNat = textGroups s.len.toNat ∧ t = finish s) ∨
        (s.len.toNat % 4 = 0 ∧ s.k.toNat ≠ textGroups s.len.toNat ∧ (∀ j, j < 4 → SrcOk s (4 * s.k.toNat + j)) ∧
          ((∃ o, chkGroup (isLastGroup s.len.toNat s.k.toNat) (sourceGroup s (4 * s.k.toNat)) = some o ∧
              t = raiseFormatError s { o with pos := 4 * s.k.toNat + o.pos }) ∨
            (chkGroup (isLastGroup s.len.toNat s.k.toNat) (sourceGroup s (4 * s.k.toNat)) = none ∧
              t = { s with k := BitVec.ofNat s.xw (s.k.toNat + 1) }))) := by
  unfold execVal at h
  simp only at h
  split at h
  · rename_i hl
    cases h
    exact .inl ⟨hl, rfl⟩
  · rename_i hl
    split at h
    · rename_i hk
      cases h
      exact .inr (.inl ⟨by omega, hk, rfl⟩)
    · rename_i hk
      split at h
      · cases h
      · rename_i g hg
        obtain ⟨hr, rfl⟩ := gatherChars_eq_ok hg
        refine .inr (.inr ⟨by omega, hk, hr, ?_⟩)
        split at h
        · rename_i o ho
          cases h
          exact .inl ⟨o, ho, rfl⟩
        · rename_i ho
          cases h
          exact .inr ⟨ho, rfl⟩

/-- All that the group step of DEC can do. -/
theorem decGroupStep_eq_next {s t : State} (h : decGroupStep s = .next t) :
    (∀ j, j < 4 → SrcOk s (4 * s.k.toNat + j)) ∧
      ∃ bs, decGroup (sourceGroup s (4 * s.k.toNat)) = some bs ∧
        (isLastGroup s.len.toNat s.k.toNat = true ∨
          (isPad (sourceGroup s (4 * s.k.toNat)).c2 = false ∧ isPad (sourceGroup s (4 * s.k.toNat)).c3 = false)) ∧
        (∀ j, j < bs.length → DstOk s (decElement s + j)) ∧
        t = advance { s with mem := engineStores s (s.dst.toNat + decElement s) bs } bs.length := by
  unfold decGroupStep at h
  split at h
  · cases h
  · rename_i g hg
    obtain ⟨hr, rfl⟩ := gatherChars_eq_ok hg
    refine ⟨hr, ?_⟩
    split at h
    · cases h
    · rename_i bs hbs
      split at h
      · cases h
      · rename_i hlast
        split at h
        · cases h
        · rename_i m hw
          cases h
          obtain ⟨hd, rfl⟩ := writeDstRun_eq_ok hw
          refine ⟨bs, hbs, ?_, hd, rfl⟩
          by_cases hl : isLastGroup s.len.toNat s.k.toNat = true
          · exact .inl hl
          · simp [hl] at hlast
            exact .inr hlast

/-- The group step of DEC succeeds on a group DecGroup defines, in a place it may stand. -/
theorem decGroupStep_ok {s : State} {bs : List Byte} (hr : ∀ j, j < 4 → SrcOk s (4 * s.k.toNat + j))
    (hb : decGroup (sourceGroup s (4 * s.k.toNat)) = some bs)
    (hl : isLastGroup s.len.toNat s.k.toNat = true ∨
      (isPad (sourceGroup s (4 * s.k.toNat)).c2 = false ∧ isPad (sourceGroup s (4 * s.k.toNat)).c3 = false))
    (hd : ∀ j, j < bs.length → DstOk s (decElement s + j)) :
    decGroupStep s =
      .next (advance { s with mem := engineStores s (s.dst.toNat + decElement s) bs } bs.length) := by
  have hcond : (!isLastGroup s.len.toNat s.k.toNat &&
      (isPad (sourceGroup s (4 * s.k.toNat)).c2 || isPad (sourceGroup s (4 * s.k.toNat)).c3)) = false := by
    rcases hl with h | ⟨h, h'⟩
    · simp [h]
    · simp [h, h']
  unfold decGroupStep
  simp only [gatherChars_ok hr, hb, hcond, writeDstRun_ok hd]
  rfl

/-- All that DEC's step can do. -/
theorem execDec_eq_next {s t : State} (h : execDec s = .next t) :
    s.len.toNat % 4 = 0 ∧
      ((s.k.toNat = textGroups s.len.toNat ∧ t = finish s) ∨
        (s.k.toNat ≠ textGroups s.len.toNat ∧ decGroupStep s = .next t)) := by
  unfold execDec at h
  split at h
  · cases h
  · rename_i hl
    refine ⟨by omega, ?_⟩
    split at h
    · rename_i hk
      cases h
      exact .inl ⟨hk, rfl⟩
    · rename_i hk
      exact .inr ⟨hk, h⟩

/-! ### How a step reaches an operation -/

/-- A word that decodes is selected by its OP field alone. -/
theorem selectOp_of_decode {n : Nat} {w : Word n} {i : Instr} (h : decode w = .instr i) :
    selectOp (opField w) = some i := by
  unfold decode at h
  split at h
  · cases h
  · split at h
    · rename_i _ j hj
      cases h
      exact hj
    · cases h

/-- The engine's turn while BUSY runs the operation its command selects. -/
theorem engineTurn_busy {s : State} {i : Instr} (hb : s.status.state = .busy) (hi : runningOp s = some i) :
    engineTurn s = exec i s := by
  unfold engineTurn
  simp only [hb, hi]

/-- The engine has no step unless BUSY (R37). -/
theorem engineTurn_not_busy {s : State} (hb : s.status.state ≠ .busy) : engineTurn s = .next s := by
  unfold engineTurn
  split <;> first | rfl | contradiction

/-- All that the engine's turn can do. -/
theorem engineTurn_eq_next {s t : State} (h : engineTurn s = .next t) :
    (s.status.state ≠ .busy ∧ t = s) ∨ (s.status.state = .busy ∧ ∃ i, runningOp s = some i ∧ exec i s = .next t) := by
  by_cases hb : s.status.state = .busy
  · refine .inr ⟨hb, ?_⟩
    unfold engineTurn at h
    simp only [hb] at h
    split at h
    · rename_i i hi
      exact ⟨i, hi, h⟩
    · cases h
  · rw [engineTurn_not_busy hb] at h
    cases h
    exact .inl ⟨hb, rfl⟩

/-! ### What the host's accesses can do -/

@[simp] theorem noteStore_eq_nil {s : State} {a : Nat} : noteStore s a = [] ↔ s.windows = [] := by
  unfold noteStore
  split <;> simp [*]

/-- A read of a register logs its value; it closes the windows when it shows the end, and does nothing else. -/
theorem hostRead_eq_next {s t : State} {i : Nat} (h : hostRead s i = .next t) :
    ∃ v, regValue s i = some v ∧ t = { s with
      observed := .reg i v :: s.observed
      windows := if showsEnd s i then [] else s.windows
      raced := if showsEnd s i then [] else s.raced } := by
  unfold hostRead at h
  split at h
  · rename_i v hv
    cases h
    exact ⟨v, hv, rfl⟩
  · cases h

/-- A BUSY block never shows the end. -/
theorem showsEnd_of_busy {s : State} (h : s.status.state = .busy) (i : Nat) : showsEnd s i = false := by
  simp [showsEnd, State.isBusy, h]

/-- A store from outside writes one byte of memory; beside it only the model's record of races changes, and no window
opens or closes. -/
theorem hostStore_eq_next {s t : State} {a : Word s.xw} {b : Byte} (h : hostStore s a b = .next t) :
    ∃ x ws rs c, t = { s with mem := s.mem.write a.toNat x, windows := ws, raced := rs, freeCount := c } ∧
      (ws = [] ↔ s.windows = []) := by
  unfold hostStore at h
  split at h <;> cases h
  · exact ⟨_, _, _, _, rfl, noteStore_eq_nil⟩
  · exact ⟨b, s.windows, s.raced, s.freeCount, rfl, Iff.rfl⟩

/-- A load logs a byte and changes nothing else but the count of free values. -/
theorem hostLoad_eq_next {s t : State} {a : Word s.xw} (h : hostLoad s a = .next t) :
    ∃ b c, t = { s with observed := .byte a b :: s.observed, freeCount := c } := by
  unfold hostLoad at h
  split at h <;> cases h
  · exact ⟨_, _, rfl⟩
  · exact ⟨_, s.freeCount, rfl⟩

end Sys2Proof.Machine
end

