-- ==== Sys2Proof/Laws/Decode.lean ====
section
/-! SUPPORT. The decoder in arithmetic: its two fields as quotient and remainder, and the decoder itself as one match on
the word's value. -/

namespace Sys2Proof

theorem opField_toNat {n : Nat} (w : Word n) : (opField w).toNat = w.toNat % 8 := by
  simp [opField]

theorem reservedField_eq_zero_iff {n : Nat} (hn : 3 ≤ n) (w : Word n) : reservedField w = 0 ↔ w.toNat / 8 = 0 := by
  have hw := w.isLt
  have h2 : 2 ^ n = 8 * 2 ^ (n - 3) := by
    rw [show (8 : ℕ) = 2 ^ 3 by norm_num, ← pow_add]
    congr 1
    omega
  rw [← BitVec.toNat_inj]
  simp only [reservedField, BitVec.extractLsb'_toNat, Nat.shiftRight_eq_div_pow]
  rw [Nat.mod_eq_of_lt (by omega)]
  simp

/-- The decoder by the value of the word, for every width that has the three bits of `OP`. -/
theorem decode_eq {n : Nat} (hn : 3 ≤ n) (w : Word n) :
    decode w =
      if 8 ≤ w.toNat then .reject .reservedBits
      else match w.toNat with
        | 1 => .instr .encsz
        | 2 => .instr .enc
        | 3 => .instr .decsz
        | 4 => .instr .val
        | 5 => .instr .dec
        | _ => .reject .reservedOp := by
  unfold decode
  by_cases h : 8 ≤ w.toNat
  · have hr : reservedField w ≠ 0 := fun h0 => by
      have := (reservedField_eq_zero_iff hn w).1 h0
      omega
    rw [if_pos hr, if_pos h]
  · have hr : ¬ reservedField w ≠ 0 := fun h0 => h0 ((reservedField_eq_zero_iff hn w).2 (by omega))
    rw [if_neg hr, if_neg h]
    unfold selectOp
    rw [opField_toNat, Nat.mod_eq_of_lt (by omega)]
    generalize w.toNat = x at h
    have : x < 8 := by omega
    interval_cases x <;> rfl

/-- A width the spec admits holds every number below 256. -/
theorem two_pow_ge_of_minWidth {n : Nat} (hn : Config.minWidth ≤ n) : 256 ≤ 2 ^ n :=
  calc 256 = 2 ^ Config.minWidth := by norm_num [Config.minWidth]
    _ ≤ 2 ^ n := Nat.pow_le_pow_right (by norm_num) hn

end Sys2Proof
end

