-- ==== Sys2Proof/Laws/Group.lean ====
section
/-! SUPPORT. The group word, its sextets and its bytes as numbers: every bit placement of 30_encoding.md rule R87 then
follows by linear arithmetic with division by constants. And the body of ChkGroup's loop as a predicate. -/

namespace Sys2Proof.Machine

theorem toNat_append_eq_add {m n : Nat} (x : BitVec m) (y : BitVec n) :
    (x ++ y).toNat = x.toNat * 2 ^ n + y.toNat := by
  rw [BitVec.toNat_append, ← Nat.shiftLeft_add_eq_or_of_lt y.isLt, Nat.shiftLeft_eq]

theorem wordOfBytes_toNat (b0 b1 b2 : Byte) :
    (wordOfBytes b0 b1 b2).toNat = b0.toNat * 65536 + b1.toNat * 256 + b2.toNat := by
  have h : (wordOfBytes b0 b1 b2).toNat = BitVec.toNat (w := 8 + 8 + 8) (b0 ++ b1 ++ b2) := rfl
  rw [h, toNat_append_eq_add, toNat_append_eq_add]
  omega

theorem wordOfSextets_toNat (v0 v1 v2 v3 : Sextet) :
    (wordOfSextets v0 v1 v2 v3).toNat = v0.toNat * 262144 + v1.toNat * 4096 + v2.toNat * 64 + v3.toNat := by
  have h : (wordOfSextets v0 v1 v2 v3).toNat = BitVec.toNat (w := 6 + 6 + 6 + 6) (v0 ++ v1 ++ v2 ++ v3) := rfl
  rw [h, toNat_append_eq_add, toNat_append_eq_add, toNat_append_eq_add]
  omega

theorem sextetOf_toNat (w : GroupWord) (j : Nat) : (sextetOf w j).toNat = w.toNat / 2 ^ (18 - 6 * j) % 64 := by
  simp [sextetOf, Nat.shiftRight_eq_div_pow]

theorem byteOf_toNat (w : GroupWord) (j : Nat) : (byteOf w j).toNat = w.toNat / 2 ^ (16 - 8 * j) % 256 := by
  simp [byteOf, Nat.shiftRight_eq_div_pow]

/-- A character does not offend exactly when R125's test lets it pass. -/
theorem offence_eq_none_iff (last : Bool) (g : TextGroup) (j : Nat) :
    offence last g j = none ↔ ¬ illegalAt last g j := by
  unfold offence illegalAt isPad
  cases h : charClass (g.get j) <;> cases last <;> simp

/-- How a character offends: a Bad one by FMT_CHAR, a pad by FMT_PAD. -/
theorem offence_eq_some_iff (last : Bool) (g : TextGroup) (j : Nat) (e : FmtErr) :
    offence last g j = some e ↔ illegalAt last g j ∧
      ((charClass (g.get j) = .bad ∧ e = .char) ∨ (charClass (g.get j) = .pad ∧ e = .pad)) := by
  unfold offence illegalAt isPad
  cases h : charClass (g.get j) <;> cases last <;> simp
  all_goals tauto

end Sys2Proof.Machine
end

