-- ==== Sys2Proof/Laws/PerInstr.lean ====
section
/-! SUPPORT. A statement about every operation as syntax, one lemma per constructor. -/

namespace Sys2Proof.Laws.CodeFitsOpField

/-- The operation's code fits the three bits of `OP` and is none of the reserved codes (30_encoding.md rules R81, R90,
R91), so its command word is well formed at every width the spec admits. -/
def Statement (i : Instr) : Prop :=
  i.wf = true ∧ opCode i < 8 ∧ opCode i ≠ 0 ∧ opCode i ≠ 6 ∧ opCode i ≠ 7 ∧
    ∀ n, Config.minWidth ≤ n → Command.wf (encode n i) = true

theorem command_wf_of_code {i : Instr} (h1 : 1 ≤ opCode i) (h5 : opCode i ≤ 5) :
    ∀ n, Config.minWidth ≤ n → Command.wf (encode n i) = true := by
  intro n hn
  have hp := two_pow_ge_of_minWidth hn
  have hv : (encode n i).toNat = opCode i := by
    simp only [encode, BitVec.toNat_ofNat]
    exact Nat.mod_eq_of_lt (by omega)
  simp only [Command.wf, hv, Bool.and_eq_true, decide_eq_true_eq]
  omega

theorem encsz : Statement .encsz :=
  ⟨rfl, by decide, by decide, by decide, by decide, command_wf_of_code (by decide) (by decide)⟩

theorem enc : Statement .enc :=
  ⟨rfl, by decide, by decide, by decide, by decide, command_wf_of_code (by decide) (by decide)⟩

theorem decsz : Statement .decsz :=
  ⟨rfl, by decide, by decide, by decide, by decide, command_wf_of_code (by decide) (by decide)⟩

theorem val : Statement .val :=
  ⟨rfl, by decide, by decide, by decide, by decide, command_wf_of_code (by decide) (by decide)⟩

theorem dec : Statement .dec :=
  ⟨rfl, by decide, by decide, by decide, by decide, command_wf_of_code (by decide) (by decide)⟩

end Sys2Proof.Laws.CodeFitsOpField
end

