-- ==== Sys2Proof/Laws/Run.lean ====
section
/-! SUPPORT. Runs and buffers: how a run takes its steps, how a step of a BUSY block reaches its operation, what runs of
writes and buffer reads compose to, and what a reset inside a step may leave in memory. -/

namespace Sys2Proof.Machine

theorem toNat_ofNat_of_lt {x n : Nat} (h : n < 2 ^ x) : (BitVec.ofNat x n).toNat = n := by
  simp [Nat.mod_eq_of_lt h]

/-! ### Runs -/

theorem runSteps_zero (s : State) : runSteps 0 s = .next s := rfl

theorem runSteps_succ (n : Nat) (s : State) :
    runSteps (n + 1) s =
      match step s with
      | .next t => runSteps n t
      | .fault r => .fault r
      | .refused r => .refused r := by
  refine (Host.Core.run.eq_2 core s n).trans ?_
  have e : core.step s = step s := rfl
  rw [e]
  cases step s <;> rfl

/-- With no move pending a step is the engine's turn. -/
theorem step_of_no_input {s : State} (h : s.inputs = []) : step s = engineTurn s := by
  unfold step takeTurn
  rw [h]

/-- With no move pending a step of a BUSY block runs the operation its command names. -/
theorem step_of_busy {s : State} {i : Instr} (hb : s.status.state = .busy) (hd : decode s.cmd = .instr i)
    (hin : s.inputs = []) : step s = exec i s :=
  (step_of_no_input hin).trans (engineTurn_busy hb (selectOp_of_decode hd))

/-! ### Buffers -/

theorem bytesAt_length (m : Memory) (a n : Nat) : (bytesAt m a n).length = n := by simp [bytesAt]

theorem bytesAt_getD (m : Memory) (a : Nat) {n i : Nat} (h : i < n) : (bytesAt m a n).getD i 0 = m.read (a + i) := by
  simp [bytesAt, List.getD_eq_getElem?_getD, h]

theorem writeBytes_append (m : Memory) (a : Nat) (bs cs : List Byte) :
    writeBytes m a (bs ++ cs) = writeBytes (writeBytes m a bs) (a + bs.length) cs := by
  induction bs generalizing m a with
  | nil => rfl
  | cons b bs ih =>
    simp only [List.cons_append, writeBytes, List.length_cons]
    rw [ih, show a + (bs.length + 1) = a + 1 + bs.length by omega]

/-! ### The destination range of a DEC -/

/-- Only memory and the two bases decide what a DEC makes of its groups. -/
theorem memoryAfterGroups_congr {s t : State} (hm : t.mem = s.mem) (hs : t.src.toNat = s.src.toNat)
    (hd : t.dst.toNat = s.dst.toNat) (k : Nat) : memoryAfterGroups t k = memoryAfterGroups s k := by
  induction k with
  | zero => exact hm
  | succ k ih => simp only [memoryAfterGroups, ih, hs, hd]

/-- The buffers of an operation are decided by memory and the operand registers. -/
theorem destRange_congr {s t : State} (hm : t.mem = s.mem) (hs : t.src.toNat = s.src.toNat)
    (hl : t.len.toNat = s.len.toNat) (hd : t.dst.toNat = s.dst.toNat) (i : Instr) : destRange t i = destRange s i := by
  cases i <;> simp only [destRange, decDestSize, lastGroupIn, memoryAfterGroups_congr hm hs hd, hm, hs, hl, hd]

theorem decGroup_length_le {g : TextGroup} {bs : List Byte} (h : decGroup g = some bs) : bs.length ≤ 3 := by
  unfold decGroup at h
  split at h <;> first | cases h; simp | cases h

theorem memoryAfterGroups_wf {s : State} (h : s.mem.wf = true) (k : Nat) : (memoryAfterGroups s k).wf = true := by
  induction k with
  | zero => exact h
  | succ k ih =>
    simp only [memoryAfterGroups]
    split
    · exact writeBytes_wf _ _ ih
    · exact ih

/-- Under the overlap premise of R62 no group changes a source byte that is still to be read. -/
theorem memoryAfterGroups_read {s : State} (hwf : s.mem.wf = true)
    (hno : noLiveOverlap s (textGroups s.len.toNat) 4 3) {k i : Nat} (hk : k ≤ textGroups s.len.toNat) (hi : 4 * k ≤ i)
    (hl : i < s.len.toNat) : (memoryAfterGroups s k).read (s.src.toNat + i) = s.mem.read (s.src.toNat + i) := by
  induction k with
  | zero => rfl
  | succ k ih =>
    simp only [memoryAfterGroups]
    split
    · rename_i bs hbs
      have h3 := decGroup_length_le hbs
      rw [read_writeBytes _ _ _ (memoryAfterGroups_wf hwf k), if_neg, ih (by omega) (by omega)]
      rintro ⟨h1, h2⟩
      exact hno k (by omega) (s.src.toNat + i - (s.dst.toNat + 3 * k)) (by omega) i hl hi (by omega)
    · exact ih (by omega) (by omega)

/-! ### Reset inside a step -/

/-- Every byte is the old one or the one the step was writing. -/
theorem landSome_read (new : Memory) (c : Nat) (dest : List Nat) {m : Memory} (h : m.wf = true) (a : Nat) :
    (landSome new c dest m).read a = m.read a ∨ (landSome new c dest m).read a = new.read a := by
  induction dest generalizing c m with
  | nil => exact .inl rfl
  | cons x rest ih =>
    simp only [landSome]
    split
    · rcases ih (c + 1) (Memory.wf_write x (new.read x) h) with h1 | h1
      · rw [h1, Memory.read_write x a _ h]
        split
        · rename_i heq
          exact .inr (by rw [heq])
        · exact .inl rfl
      · exact .inr h1
    · exact ih (c + 1) h

/-- It keeps the canonical form and the address space. -/
theorem landSome_wf_below {new : Memory} (c : Nat) (dest : List Nat) {m : Memory} {bound : Nat} (h : m.wf = true)
    (hb : m.below bound = true) (hn : new.below bound = true) :
    (landSome new c dest m).wf = true ∧ (landSome new c dest m).below bound = true := by
  induction dest generalizing c m with
  | nil => exact ⟨h, hb⟩
  | cons x rest ih =>
    simp only [landSome]
    split
    · refine ih (c + 1) (Memory.wf_write _ _ h) (Memory.below_write hb ?_)
      by_cases hx : x < bound
      · exact .inl hx
      · exact .inr (Memory.read_of_below hn (by omega))
    · exact ih (c + 1) h hb

end Sys2Proof.Machine
end

