-- ==== Sys2Proof/Tests/Slice0.lean ====
section
/-! SUPPORT. The model's own tests: what well-formedness refuses, decoding of words written out from the spec's
encodings, the spec's examples (95_test_vectors.md) one step at a time, and for each statement of Certificates/Slice0
with hypotheses a state and operands that meet them. Expected values are the spec's; each test names its vector. -/

open Sys2Proof Sys2Proof.Machine

namespace Sys2Proof.Tests

/-! ### Small states -/

/-- Memory that holds the bytes `bs` from address `a` upward. -/
def holding (a : Nat) (bs : List Byte) : Memory := writeBytes [] a bs

/-- A window of `len` source bytes and four destination bytes, opened with memory `mem`. -/
def windowOf (src len dst : Word 32) (mem : Memory) : Window :=
  ⟨⟨src.toNat, len.toNat⟩, ⟨dst.toNat, 4⟩, ⟨dst.toNat, 4⟩, ⟨0, 0⟩, mem, []⟩

/-- A block of the default width, operation `i` just issued. `Owned` is 0x1000 to 0x10FF and 0x2000 to 0x2003. -/
def issued (i : Instr) (src len dst : Word 32) (mem : Memory) : State where
  xw := 32
  cmd := encode 32 i
  src := src
  len := len
  dst := dst
  status := ⟨.busy, .none⟩
  result := 0
  errpos := 0
  errchar := 0
  k := 0
  mem := mem
  owned := [⟨0x1000, 0x100⟩, ⟨0x2000, 4⟩]
  ownedNext := none
  windows := [windowOf src len dst mem]
  raced := []
  inputs := []
  observed := []
  freeCount := 0

/-- The same block after `k` groups with `r` elements written. -/
def running (i : Instr) (src len dst : Word 32) (mem : Memory) (k r : Word 32) : State where
  xw := 32
  cmd := encode 32 i
  src := src
  len := len
  dst := dst
  status := ⟨.busy, .none⟩
  result := r
  errpos := 0
  errchar := 0
  k := k
  mem := mem
  owned := [⟨0x1000, 0x100⟩, ⟨0x2000, 4⟩]
  ownedNext := none
  windows := [windowOf src len dst mem]
  raced := []
  inputs := []
  observed := []
  freeCount := 0

/-- A block that is not BUSY, with the report of an error at 2, and the moves `ms` to come. -/
def ended (ms : List (Move 32)) : State where
  xw := 32
  cmd := 4
  src := 0x1000
  len := 3
  dst := 0
  status := ⟨.error, .format .char⟩
  result := 0
  errpos := 2
  errchar := 0x21
  k := 0
  mem := []
  owned := []
  ownedNext := none
  windows := []
  raced := []
  inputs := ms
  observed := []
  freeCount := 0

/-- What `f` says of the next state, if there is one. -/
def look {α : Type} (o : Host.Outcome State Fault Refusal) (f : State → α) : Option α :=
  match o with
  | .next t => some (f t)
  | .fault _ => none
  | .refused _ => none

/-- STATUS, RESULT, ERRPOS, ERRCHAR as the host reads them. -/
def report (t : State) : List Nat :=
  [(statusWord t.xw t.status).toNat, t.result.toNat, t.errpos.toNat, t.errchar.toNat]

/-- CMD, SRC, LEN, DST as the host reads them. -/
def operands (t : State) : List Nat := [t.cmd.toNat, t.src.toNat, t.len.toNat, t.dst.toNat]

/-- What the host has read, newest first, as numbers. -/
def seen (t : State) : List (Nat × Nat) :=
  t.observed.map fun o =>
    match o with
    | .reg i v => (i, v.toNat)
    | .byte a b => (a.toNat, b.toNat)

/-- The fault a step ends in, if it does. -/
def faultOf (o : Host.Outcome State Fault Refusal) : Option Fault :=
  match o with
  | .next _ => none
  | .fault r => some r
  | .refused _ => none

/-- The refusal a step ends in, if it does. -/
def refusalOf (o : Host.Outcome State Fault Refusal) : Option Refusal :=
  match o with
  | .next _ => none
  | .fault _ => none
  | .refused r => some r

theorem next_of_look {o : Host.Outcome State Fault Refusal} (h : (look o fun _ => ()) = some ()) : ∃ t, o = .next t := by
  cases o with
  | next t => exact ⟨t, rfl⟩
  | fault r => cases h
  | refused r => cases h

/-! ### Well-formedness refuses -/

theorem test_wf_width_7 : Width.wf 7 = false := by decide
theorem test_wf_width_8 : Width.wf 8 = true := by decide
theorem test_wf_register_8 : RegNum.wf 8 = false := by decide
theorem test_wf_register_7 : RegNum.wf 7 = true := by decide
theorem test_wf_command_0 : Command.wf (0 : Word 32) = false := by decide
theorem test_wf_command_6 : Command.wf (6 : Word 32) = false := by decide
theorem test_wf_command_reserved_bit : Command.wf (0x12 : Word 32) = false := by decide
theorem test_wf_command_top_bit : Command.wf (0x80000001 : Word 32) = false := by decide
theorem test_wf_command_5 : Command.wf (5 : Word 32) = true := by decide
theorem test_wf_memory_unsorted : Memory.wf [(2, 1), (1, 1)] = false := by decide
theorem test_wf_memory_repeated : Memory.wf [(1, 1), (1, 2)] = false := by decide
theorem test_wf_memory_lists_a_default : Memory.wf [(1, 0)] = false := by decide
theorem test_wf_status_done_with_error : Status.coherent ⟨.done, .illegalOp⟩ = false := by decide
theorem test_wf_status_error_without_code : Status.coherent ⟨.error, .none⟩ = false := by decide
theorem test_write_of_default_removes : Memory.write [(1, 5), (3, 7)] 3 0 = [(1, 5)] := by decide

/-! ### Decoding (30_encoding.md section 5) -/

theorem test_decode_encsz : decode (0b00000000000000000000000000000001#32) = .instr .encsz := by decide
theorem test_decode_enc : decode (0b00000000000000000000000000000010#32) = .instr .enc := by decide
theorem test_decode_decsz : decode (0b00000000000000000000000000000011#32) = .instr .decsz := by decide
theorem test_decode_val : decode (0b00000000000000000000000000000100#32) = .instr .val := by decide
theorem test_decode_dec : decode (0b00000000000000000000000000000101#32) = .instr .dec := by decide
theorem test_decode_width_8 : decode (0b00000101#8) = .instr .dec := by decide
theorem test_decode_width_8_bit_3 : decode (0b00001001#8) = .reject .reservedBits := by decide
theorem test_table_words :
    [1, 2, 3, 4, 5].map (decodeTableWord 32) =
      [some .encsz, some .enc, some .decsz, some .val, some .dec] := by decide
theorem test_table_word_illegal : [0, 6, 7, 0x12].map (decodeTableWord 32) = [none, none, none, none] := by decide

/-! ### One step of each operation (95_test_vectors.md sections 1 to 6) -/

/-- V-ESZ-12: the largest legal LEN. -/
theorem test_encsz_largest : look (exec .encsz (issued .encsz 0 0xBFFFFFFD 0 [])) report = some [2, 0xFFFFFFFC, 0, 0] := by
  decide

/-- V-ESZ-14: `LEN + 2` does not wrap. -/
theorem test_encsz_overflow : faultOf (exec .encsz (issued .encsz 0 0xFFFFFFFF 0 [])) = some .sizeOverflow := by decide

/-- S3: "Ma" gives "TWE=". -/
theorem test_enc_ma :
    look (exec .enc (issued .enc 0x1000 2 0x2000 (holding 0x1000 [0x4D, 0x61, 0x6E])))
      (fun t => (bytesAt t.mem 0x2000 5, t.result.toNat, t.k.toNat)) = some ([0x54, 0x57, 0x45, 0x3D, 0], 4, 1) := by
  decide

/-- V-ENC-26: the second group of an encoding in place reads what the first one wrote. -/
theorem test_enc_in_place :
    look (exec .enc
        (running .enc 0x1000 6 0x1000 (holding 0x1000 [0x54, 0x57, 0x46, 0x75, 0x61, 0x6E]) 1 4))
      (fun t => bytesAt t.mem 0x1000 8) = some [0x54, 0x57, 0x46, 0x75, 0x64, 0x57, 0x46, 0x75] := by
  decide

/-- V-DSZ-6: "TWFuTWE=" decodes to 5 bytes. -/
theorem test_decsz_pad1 :
    look (exec .decsz
        (issued .decsz 0x1000 8 0 (holding 0x1000 [0x54, 0x57, 0x46, 0x75, 0x54, 0x57, 0x45, 0x3D]))) report =
      some [2, 5, 0, 0] := by
  decide

/-- V-DSZ-13: "TWFuA===" ends in three pads. -/
theorem test_decsz_three_pads :
    look (exec .decsz
        (issued .decsz 0x1000 8 0 (holding 0x1000 [0x54, 0x57, 0x46, 0x75, 0x41, 0x3D, 0x3D, 0x3D]))) report =
      some [0x0F, 0, 5, 0x3D] := by
  decide

/-- S7: "TW!u" is reported at the `!`. -/
theorem test_val_bad_char :
    look (exec .val (issued .val 0x1000 4 0 (holding 0x1000 [0x54, 0x57, 0x21, 0x75]))) report =
      some [0x0B, 0, 2, 0x21] := by
  decide

/-- V-VAL-27: in "TWFuTW=u" the pad offends, its position counted from the start of the string. -/
theorem test_val_interior_pad :
    look (exec .val
        (running .val 0x1000 8 0 (holding 0x1000 [0x54, 0x57, 0x46, 0x75, 0x54, 0x57, 0x3D, 0x75]) 1 0)) report =
      some [0x0F, 0, 6, 0x3D] := by
  decide

/-- V-DEC-23: the second group of "TWFuTQ==" decoded in place goes to `DST + 3`. -/
theorem test_dec_in_place :
    look (exec .dec
        (running .dec 0x1000 8 0x1000 (holding 0x1000 [0x4D, 0x61, 0x6E, 0x75, 0x54, 0x51, 0x3D, 0x3D]) 1 3))
      (fun t => (bytesAt t.mem 0x1000 8, t.result.toNat, t.k.toNat)) =
      some ([0x4D, 0x61, 0x6E, 0x4D, 0x54, 0x51, 0x3D, 0x3D], 4, 2) := by
  decide

/-- V-DEC-21: in "TQ==TWFu" a padded group is not the last. -/
theorem test_dec_pad_not_last :
    faultOf (exec .dec
        (issued .dec 0x1000 8 0x2000 (holding 0x1000 [0x54, 0x51, 0x3D, 0x3D, 0x54, 0x57, 0x46, 0x75]))) =
      some .malformed := by
  decide

/-! ### Preconditions (95_test_vectors.md section 3) -/

/-- V-ENC-23. -/
theorem test_null_source : faultOf (exec .enc (issued .enc 0 3 0x2000 [])) = some .nullBase := by decide

/-- V-ENC-24, with the top of the address space owned. -/
theorem test_address_range :
    faultOf (exec .enc { issued .enc 0 3 0x2000 [] with src := 0xFFFFFFFE#32, owned := [⟨0, 2 ^ 32⟩] }) =
      some .addrRange := by
  decide

/-- V-ENC-25: the destination is owned for 4 bytes only. -/
theorem test_small_destination :
    faultOf (exec .enc (running .enc 0x1000 4 0x2000 [] 1 4)) = some .outOfBounds := by decide

/-- V-ENC-22. -/
theorem test_null_bases_of_nothing : look (exec .enc (issued .enc 0 0 0 [])) report = some [2, 0, 0, 0] := by decide

/-! ### The host and reset (95_test_vectors.md sections 7, 8) -/

/-- V-CMD-1. -/
theorem test_reset_reads_zero :
    [0, 1, 2, 3, 4, 5, 6, 7].map (fun i => (regValue State.reset i).map BitVec.toNat) = List.replicate 8 (some 0) := by
  decide

/-- V-CMD-7: a command out of ERROR; then one engine step. -/
theorem test_command_leaves_error : look (step (ended [.write 0 1])) report = some [1, 0, 0, 0] := by decide

/-- V-CMD-5. -/
theorem test_illegal_command :
    look (step (ended [.write 0 0x12])) (fun t => (report t, operands t)) =
      some ([0x13, 0, 0, 0], [0x12, 0x1000, 3, 0]) := by
  decide

/-- V-CMD-8. -/
theorem test_status_write_ignored : look (step (ended [.write 4 0xFFFFFFFF])) report = some [0x0B, 0, 2, 0x21] := by
  decide

/-- V-ENC-27: a write of LEN while BUSY is ignored. -/
theorem test_busy_write_ignored :
    look (step { running .enc 0x1000 4 0x2000 [] 1 4 with inputs := [.write 2 (1 : Word 32)] })
      (fun t => (operands t, report t)) = some ([2, 0x1000, 4, 0x2000], [1, 4, 0, 0]) := by
  decide

/-- V-CMD-11: reset between two steps leaves memory as it is. -/
theorem test_reset_between_steps :
    look (step { running .enc 0x1000 4 0x2000 (holding 0x2000 [0x54, 0x57, 0x46, 0x75]) 1 4 with inputs := [.reset] })
      (fun t => (operands t, report t, bytesAt t.mem 0x2000 5)) =
      some ([0, 0, 0, 0], [0, 0, 0, 0], [0x54, 0x57, 0x46, 0x75, 0]) := by
  decide

/-- A host store on the last source byte of a running operation runs: the byte is stored and the race recorded (log 7);
one byte further it is a plain store. -/
theorem test_store_on_open_source :
    look (step { issued .val 0x1000 4 0 [] with inputs := [.store (0x1003 : Word 32) 0x41] })
        (fun t => (bytesAt t.mem 0x1003 2, t.raced)) = some ([0x41, 0], [(0x1003, 0)]) ∧
      look (step { issued .val 0x1000 4 0 [] with inputs := [.store (0x1004 : Word 32) 0x41] })
        (fun t => (bytesAt t.mem 0x1003 2, t.raced)) = some ([0, 0x41], []) := by
  decide

/-- A block about to be issued a DEC of "TWFuTQ==" at 0x1000 to 0x2000: four bytes, R51's 6 less its two pads. -/
def decAtHand (ms : List (Move 32)) : State :=
  { ended ms with
    src := 0x1000#32
    len := 8#32
    dst := 0x2000#32
    owned := [⟨0x1000, 0x100⟩, ⟨0x2000, 4⟩]
    mem := holding 0x1000 [0x54, 0x57, 0x46, 0x75, 0x54, 0x51, 0x3D, 0x3D] }

/-- The byte past a padded DEC's destination is the host's: while the DEC runs it stores it and loads what it stored (R51,
R64). That the model notes the store, in case the pads change too, is log 7's. -/
theorem test_dec_tail_is_the_hosts :
    look (runSteps 3 (decAtHand [.write 0 5, .store (0x2004 : Word 32) 0x41, .load (0x2004 : Word 32)]))
      (fun t => (report t, seen t, t.raced)) = some ([1, 0, 0, 0], [(0x2004, 0x41)], [(0x2004, 0)]) := by
  decide

/-- A DEC of one group has nothing unread when it writes: "TQ==" at 0x1000 to 0x1003 has a destination of one byte (R51),
and the byte after it is the host's. -/
theorem test_dec_one_group_tail :
    look (runSteps 3 { decAtHand [.write 0 5, .store (0x1004 : Word 32) 0x41, .engine] with
        len := 4#32, dst := 0x1003#32, mem := holding 0x1000 [0x54, 0x51, 0x3D, 0x3D] })
      (fun t => (t.result.toNat, bytesAt t.mem 0x1003 2)) = some (1, [0x4D, 0x41]) := by
  decide

/-- A DEC whose first group overwrites the pads of its last (R62): "TWFuTQ==" at 0x1000 to 0x1004 reads "Man=" there and
writes 5 bytes, one more than the string as issued has. -/
theorem test_dec_overwrites_its_pads :
    (destRange { decAtHand [] with dst := 0x1004#32 } .dec = ⟨0x1004, 5⟩) ∧
      look (runSteps 3 { decAtHand [.write 0 5, .engine, .engine] with dst := 0x1004#32 }) (fun t => t.result.toNat) =
        some 5 := by
  decide

/-- A store to a source byte that does not decide the pads leaves the destination as it is; one to a pad makes it grow. -/
theorem test_only_pad_bytes_grow_the_destination :
    look (runSteps 2 (decAtHand [.write 0 5, .store (0x1000 : Word 32) 0x41])) (fun t => t.windows.map (·.dst.size)) =
        some [4] ∧
      look (runSteps 2 (decAtHand [.write 0 5, .store (0x1007 : Word 32) 0x41])) (fun t => t.windows.map (·.dst.size)) =
        some [6] := by
  decide

/-- After the end the buffers stay open until a read of STATUS shows it (R63, R186): here the DEC is DONE after four
moves, and the read of RESULT does not show it. -/
theorem test_window_ends_with_the_status_read :
    look (runSteps 5 (decAtHand [.write 0 5, .engine, .engine, .engine, .read 5]))
        (fun t => (t.status.state, t.windows.length)) = some (.done, 1) ∧
      look (runSteps 5 (decAtHand [.write 0 5, .engine, .engine, .engine, .read 4]))
        (fun t => (t.status.state, t.windows.length)) = some (.done, 0) := by
  decide

/-- `Owned` set while BUSY waits for the next command (R7, log 3). -/
theorem test_own_while_busy_waits :
    look (step { issued .val 0 0 0 [] with inputs := [.own [⟨1, 2⟩]] }) (fun t => (t.owned.length, t.ownedNext)) =
        some (2, some [⟨1, 2⟩]) ∧
      (issueCommand { ended [] with ownedNext := some [⟨1, 2⟩] } (4 : Word 32)).owned = [⟨1, 2⟩] := by
  decide

/-- A register number above 7 is declined (log 9). -/
theorem test_unmapped_register : refusalOf (step (ended [.read 8])) = some (.unmappedRegister 8) := by decide

/-- Program P1 as moves, and its encoding as the spec lists it. -/
theorem test_program_p1 :
    programWrites (n := 32) [.encsz 3, .rd 5, .enc 0x1000 3 0x2000, .rd 5] =
      [(2, 3), (0, 1), (1, 0x1000), (2, 3), (3, 0x2000), (0, 2)] := by
  decide

/-- From reset: the first lines of P1, its WAIT ending with a read of STATUS that shows DONE. -/
theorem test_program_from_reset :
    look (runSteps 5 { State.reset with inputs := programMoves (n := 32) [.encsz 3, .rd 5] })
      (fun t => (report t, seen t)) = some ([2, 4, 0, 0], [(5, 4), (4, 2)]) := by
  decide

/-- Launching the table's word of ENCSZ from reset: the very next step is its step. -/
theorem test_fetch_from_reset : look (step (State.reset.withFetchWord 32 1)) report = some [2, 0, 0, 0] := by decide

/-! ### Witnesses: for each statement with hypotheses, data that meet all of them together -/

/-- The source memory most witnesses use: "TWFuTWE=" at 0x1000. -/
def twfutwe : Memory := holding 0x1000 [0x54, 0x57, 0x46, 0x75, 0x54, 0x57, 0x45, 0x3D]

/-- "TWFuTW=u" at 0x1000: the second group has an offender at 2. -/
def twfutwpu : Memory := holding 0x1000 [0x54, 0x57, 0x46, 0x75, 0x54, 0x57, 0x3D, 0x75]

theorem witness_DecodeExactlyEncode :
    Config.minWidth ≤ 8 ∧ decode (5 : Word 8) = .instr .dec ∧ (5 : Word 8) = encode 8 .dec := by decide

theorem witness_DecodeRejectsIllegalWords :
    Config.minWidth ≤ 8 ∧ (decode (8 : Word 8) = .reject .reservedBits ∧ 8 ≤ (8 : Word 8).toNat) ∧
      (decode (7 : Word 8) = .reject .reservedOp ∧ decode (0 : Word 8) = .reject .reservedOp ∧
        decode (6 : Word 8) = .reject .reservedOp) := by
  decide

/-- The ends of the alphabet's ranges (30_encoding.md section 2). -/
theorem witness_AlphabetClosedForm :
    ([0, 25, 26, 51, 52, 61, 62, 63] : List Sextet).map alphabet =
      [0x41, 0x5A, 0x61, 0x7A, 0x30, 0x39, 0x2B, 0x2F] := by
  decide

theorem witness_DecGroupInvertsEncGroup :
    (1 ≤ 1 ∧ 1 ≤ 3 ∧ decGroup (encGroup 1 0x4D 0x61 0x6E) = some [0x4D]) ∧
      (1 ≤ 3 ∧ 3 ≤ 3 ∧ decGroup (encGroup 3 0x4D 0x61 0x6E) = some [0x4D, 0x61, 0x6E]) := by
  decide

/-- The three remainders of the length, the empty list among them. -/
theorem witness_EncodedTextPadding :
    ([] : List Byte).length % 3 = 0 ∧ ([0x4D] : List Byte).length % 3 = 1 ∧ ([0x4D, 0x61] : List Byte).length % 3 = 2 ∧
      trailingPads (encText []) = 0 ∧ trailingPads (encText [0x4D]) = 2 ∧ trailingPads (encText [0x4D, 0x61]) = 1 := by
  decide

theorem witness_DecodedTextLength :
    validText [] = true ∧ validText [0x54, 0x57, 0x46, 0x75, 0x54, 0x51, 0x3D, 0x3D] = true := by decide

/-- "TQ==" comes back, "TR==" does not (41_decoder.md section 5). -/
theorem witness_EncodeInvertsDecodeText :
    (validText [0x54, 0x51, 0x3D, 0x3D] = true ∧
        encText (decText [0x54, 0x51, 0x3D, 0x3D]) = [0x54, 0x51, 0x3D, 0x3D]) ∧
      (validText [0x54, 0x52, 0x3D, 0x3D] = true ∧
        encText (decText [0x54, 0x52, 0x3D, 0x3D]) = [0x54, 0x51, 0x3D, 0x3D]) := by
  decide

theorem witness_EncszCompletes :
    let s := issued .encsz 0 0xBFFFFFFD 0 []
    (s.len.toNat + 2) / 3 * 4 < 2 ^ s.xw := by decide

/-- The two sides of the bound. -/
theorem witness_EncszOverflowBound :
    ¬ (2 ^ 32 - 1) / 4 * 3 < (issued .encsz 0 0xBFFFFFFD 0 []).len.toNat ∧
      (2 ^ 32 - 1) / 4 * 3 < (issued .encsz 0 0xBFFFFFFE 0 []).len.toNat := by
  decide

/-- A full group, and a last group of one byte. -/
theorem witness_EncGroupStepCompletes :
    (let s := issued .enc 0x1000 4 0x2000 twfutwe;
      s.mem.wf = true ∧ 4 * ((s.len.toNat + 2) / 3) < 2 ^ s.xw ∧ s.k.toNat < (s.len.toNat + 2) / 3 ∧
        (∀ j, j < min 3 (s.len.toNat - 3 * s.k.toNat) → SrcOk s (3 * s.k.toNat + j)) ∧
        (∀ j, j < 4 → DstOk s (4 * s.k.toNat + j))) ∧
      (let s := running .enc 0x1000 4 0x1080 twfutwe 1 4;
        s.mem.wf = true ∧ 4 * ((s.len.toNat + 2) / 3) < 2 ^ s.xw ∧ s.k.toNat < (s.len.toNat + 2) / 3 ∧
          (∀ j, j < min 3 (s.len.toNat - 3 * s.k.toNat) → SrcOk s (3 * s.k.toNat + j)) ∧
          (∀ j, j < 4 → DstOk s (4 * s.k.toNat + j))) := by
  decide

/-- Empty buffers with null bases, and the end of one group. -/
theorem witness_FinishingStepCompletes :
    (let s := issued .enc 0 0 0 [];
      4 * ((s.len.toNat + 2) / 3) < 2 ^ s.xw ∧ s.k.toNat = (s.len.toNat + 2) / 3) ∧
      (let s := running .enc 0x1000 3 0x2000 [] 1 4;
        4 * ((s.len.toNat + 2) / 3) < 2 ^ s.xw ∧ s.k.toNat = (s.len.toNat + 2) / 3) ∧
      (let s := issued .val 0 0 0 [];
        s.len.toNat % 4 = 0 ∧ s.k.toNat = s.len.toNat / 4) ∧
      (let s := running .dec 0x1000 8 0x2000 [] 2 5;
        s.len.toNat % 4 = 0 ∧ s.k.toNat = s.len.toNat / 4) := by
  decide

/-- The empty string; a last group with one pad; a last group with two. -/
theorem witness_DecszCompletes :
    (issued .decsz 0 0 0 []).len.toNat = 0 ∧
      (let s := issued .decsz 0x1000 8 0 twfutwe;
        s.len.toNat % 4 = 0 ∧ s.len.toNat ≠ 0 ∧ (∀ j, j < 4 → SrcOk s (s.len.toNat - 4 + j)) ∧
          trailPad (sourceGroup s (s.len.toNat - 4)) ≤ 2) ∧
      (let s := issued .decsz 0x1000 4 0 (holding 0x1000 [0x54, 0x51, 0x3D, 0x3D]);
        s.len.toNat % 4 = 0 ∧ s.len.toNat ≠ 0 ∧ (∀ j, j < 4 → SrcOk s (s.len.toNat - 4 + j)) ∧
          trailPad (sourceGroup s (s.len.toNat - 4)) = 2) := by
  decide

/-- No offender, as a computation (Laws/Group.lean relates the two). -/
theorem no_offence_iff (last : Bool) (g : TextGroup) :
    (∀ j, j < 4 → ¬ illegalAt last g j) ↔ ∀ j, j < 4 → offence last g j = none := by
  constructor
  · exact fun h j hj => (offence_eq_none_iff last g j).2 (h j hj)
  · exact fun h j hj => (offence_eq_none_iff last g j).1 (h j hj)

theorem offence_of_isSome {last : Bool} {g : TextGroup} {j : Nat} (h : (offence last g j).isSome = true) :
    illegalAt last g j := by
  by_contra hn
  rw [(offence_eq_none_iff last g j).2 hn] at h
  cases h

theorem witness_ValGroupStepCompletes :
    let s := running .val 0x1000 8 0 twfutwe 1 0
    s.len.toNat % 4 = 0 ∧ s.k.toNat ≠ s.len.toNat / 4 ∧ (∀ j, j < 4 → SrcOk s (4 * s.k.toNat + j)) ∧
      (∀ j, j < 4 → ¬ illegalAt (decide (s.k.toNat + 1 = s.len.toNat / 4)) (sourceGroup s (4 * s.k.toNat)) j) :=
  ⟨by decide, by decide, by decide, (no_offence_iff _ _).2 (by decide)⟩

/-- A full group that is not the last, and a padded last group. -/
theorem witness_DecGroupStepCompletes :
    (let s := issued .dec 0x1000 8 0x2000 twfutwe;
      s.mem.wf = true ∧ s.len.toNat % 4 = 0 ∧ s.k.toNat ≠ s.len.toNat / 4 ∧
        (∀ j, j < 4 → SrcOk s (4 * s.k.toNat + j)) ∧
        decGroup (sourceGroup s (4 * s.k.toNat)) = some [0x4D, 0x61, 0x6E] ∧
        (s.k.toNat + 1 = s.len.toNat / 4 ∨ (sourceGroup s (4 * s.k.toNat)).full = true) ∧
        (∀ t, t < 3 → DstOk s (s.result.toNat + t))) ∧
      (let s := running .dec 0x1000 8 0x1000 twfutwe 1 3;
        s.mem.wf = true ∧ s.len.toNat % 4 = 0 ∧ s.k.toNat ≠ s.len.toNat / 4 ∧
          (∀ j, j < 4 → SrcOk s (4 * s.k.toNat + j)) ∧
          decGroup (sourceGroup s (4 * s.k.toNat)) = some [0x4D, 0x61] ∧
          (s.k.toNat + 1 = s.len.toNat / 4 ∨ (sourceGroup s (4 * s.k.toNat)).full = true) ∧
          (∀ t, t < 2 → DstOk s (s.result.toNat + t))) := by
  decide

/-- A bad length with a null source; "====" and "A===". -/
theorem witness_DecszReportsFormatErrors :
    (issued .decsz 0 3 0 []).len.toNat % 4 ≠ 0 ∧
      (let s := issued .decsz 0x1000 4 0 (holding 0x1000 [0x3D, 0x3D, 0x3D, 0x3D]);
        s.len.toNat % 4 = 0 ∧ s.len.toNat ≠ 0 ∧ (∀ j, j < 4 → SrcOk s (s.len.toNat - 4 + j)) ∧
          3 ≤ trailPad (sourceGroup s (s.len.toNat - 4))) ∧
      (let s := issued .decsz 0x1000 4 0 (holding 0x1000 [0x41, 0x3D, 0x3D, 0x3D]);
        s.len.toNat % 4 = 0 ∧ s.len.toNat ≠ 0 ∧ (∀ j, j < 4 → SrcOk s (s.len.toNat - 4 + j)) ∧
          3 = trailPad (sourceGroup s (s.len.toNat - 4))) := by
  decide

theorem witness_ValReportsFormatErrors :
    (issued .val 0 3 0 []).len.toNat % 4 ≠ 0 ∧
      (let s := running .val 0x1000 8 0 twfutwpu 1 0;
        s.len.toNat % 4 = 0 ∧ s.k.toNat ≠ s.len.toNat / 4 ∧ (∀ i, i < 4 → SrcOk s (4 * s.k.toNat + i)) ∧ 2 < 4 ∧
          illegalAt (decide (s.k.toNat + 1 = s.len.toNat / 4)) (sourceGroup s (4 * s.k.toNat)) 2 ∧
          (∀ i, i < 2 → ¬ illegalAt (decide (s.k.toNat + 1 = s.len.toNat / 4)) (sourceGroup s (4 * s.k.toNat)) i)) := by
  refine ⟨by decide, by decide, by decide, by decide, by decide, offence_of_isSome (by decide), fun i hi => ?_⟩
  refine (offence_eq_none_iff _ _ _).1 ?_
  have : i = 0 ∨ i = 1 := by omega
  rcases this with rfl | rfl <;> decide

/-- DECSZ and VAL, each ending in ERROR. -/
theorem witness_FormatErrorEntry :
    (let s := issued .decsz 0 3 0 [];
      s.status.state = .busy ∧ look (exec .decsz s) (fun t => t.status.state) = some .error) ∧
      (let s := running .val 0x1000 8 0 twfutwpu 1 0;
        s.status.state = .busy ∧ look (exec .val s) (fun t => t.status.state) = some .error) := by
  decide

/-- Each reason, at the edge of its range. -/
theorem witness_AccessFaultReasons :
    (let s := issued .enc 0xFFFFFFFF 3 0xFFFFFFFF [];
      2 ^ s.xw ≤ s.src.toNat + 1 ∧ 2 ^ s.xw ≤ s.dst.toNat + 1 ∧
        s.src.toNat + 0 < 2 ^ s.xw ∧ s.src.toNat ≠ 0 ∧ ownedAddr s.owned (s.src.toNat + 0) = false ∧
        s.dst.toNat + 0 < 2 ^ s.xw ∧ s.dst.toNat ≠ 0 ∧ ownedAddr s.owned (s.dst.toNat + 0) = false) ∧
      (let s := issued .enc 0 3 0 [];
        s.src.toNat + 0 < 2 ^ s.xw ∧ s.src.toNat = 0 ∧ s.dst.toNat + 0 < 2 ^ s.xw ∧ s.dst.toNat = 0) ∧
      (let s := issued .enc 0x1000 3 0x2000 [];
        SrcOk s 0xFF ∧ DstOk s 3 ∧ ¬ SrcOk s 0x100 ∧ ¬ DstOk s 4 ∧ raceAt s (s.src.toNat + 0xFF) = none ∧
          raceAt s (s.dst.toNat + 3) = none) ∧
      (let s := { issued .enc 0x1000 3 0x2000 [] with raced := [(0x2003, 4), (0x10FF, 1)] };
        SrcOk s 0xFF ∧ DstOk s 3 ∧ raceAt s (s.src.toNat + 0xFF) = some 1 ∧ raceAt s (s.dst.toNat + 3) = some 4) := by
  decide

theorem witness_EncStopsOnViolations :
    (let s := issued .enc 0x1000 0xBFFFFFFE 0x2000 [];
      2 ^ s.xw ≤ 4 * ((s.len.toNat + 2) / 3)) ∧
      (let s := issued .enc 0 3 0x2000 [];
        4 * ((s.len.toNat + 2) / 3) < 2 ^ s.xw ∧ s.k.toNat < (s.len.toNat + 2) / 3 ∧ s.src.toNat = 0) ∧
      (let s := issued .enc 0x1000 3 0 [];
        4 * ((s.len.toNat + 2) / 3) < 2 ^ s.xw ∧ s.k.toNat < (s.len.toNat + 2) / 3 ∧
          (∀ j, j < min 3 (s.len.toNat - 3 * s.k.toNat) → SrcOk s (3 * s.k.toNat + j)) ∧ s.dst.toNat = 0) ∧
      (let s := running .enc 0x1000 4 0x2000 [] 1 4;
        4 * ((s.len.toNat + 2) / 3) < 2 ^ s.xw ∧ s.k.toNat < (s.len.toNat + 2) / 3 ∧
          (∀ j, j < min 3 (s.len.toNat - 3 * s.k.toNat) → SrcOk s (3 * s.k.toNat + j)) ∧ s.dst.toNat ≠ 0 ∧
          s.dst.toNat + 4 * s.k.toNat < 2 ^ s.xw ∧ ownedAddr s.owned (s.dst.toNat + 4 * s.k.toNat) = false) := by
  decide

/-- A bad length; an interior pad in the last group. -/
theorem witness_DecStopsOnMalformed :
    (issued .dec 0x1000 3 0x2000 []).len.toNat % 4 ≠ 0 ∧
      (let s := running .dec 0x1000 8 0x2000 twfutwpu 1 3;
        s.len.toNat % 4 = 0 ∧ s.k.toNat ≠ s.len.toNat / 4 ∧ (∀ j, j < 4 → SrcOk s (4 * s.k.toNat + j)) ∧
          (∃ j, j < 4 ∧
            illegalAt (decide (s.k.toNat + 1 = s.len.toNat / 4)) (sourceGroup s (4 * s.k.toNat)) j)) :=
  ⟨by decide, by decide, by decide, by decide, 2, by decide, offence_of_isSome (by decide)⟩

/-- A next state of each: ENCSZ; DECSZ to DONE and to ERROR; VAL to the next group, to DONE and to ERROR. -/
theorem witness_ReadOnlyOperationsFrame :
    (∃ t, exec .encsz (issued .encsz 0 3 0 []) = .next t) ∧
      (∃ t, exec .decsz (issued .decsz 0x1000 8 0 twfutwe) = .next t) ∧
      (∃ t, exec .decsz (issued .decsz 0 3 0 []) = .next t) ∧
      (∃ t, exec .val (issued .val 0x1000 8 0 twfutwe) = .next t) ∧
      (∃ t, exec .val (running .val 0x1000 8 0 twfutwe 2 0) = .next t) ∧
      (∃ t, exec .val (running .val 0x1000 8 0 twfutwpu 1 0) = .next t) :=
  ⟨next_of_look (by decide), next_of_look (by decide), next_of_look (by decide), next_of_look (by decide),
    next_of_look (by decide), next_of_look (by decide)⟩

/-- A group step and a finishing step. -/
theorem witness_EncFrame :
    (let s := issued .enc 0x1000 3 0x2000 twfutwe;
      s.mem.wf = true ∧ s.k.toNat ≠ binGroups s.len.toNat ∧ ∃ t, exec .enc s = .next t) ∧
      (let s := running .enc 0x1000 3 0x2000 twfutwe 1 4;
        s.mem.wf = true ∧ s.k.toNat = binGroups s.len.toNat ∧ ∃ t, exec .enc s = .next t) :=
  ⟨⟨by decide, by decide, next_of_look (by decide)⟩, by decide, by decide, next_of_look (by decide)⟩

theorem witness_DecFrame :
    (let s := issued .dec 0x1000 8 0x2000 twfutwe;
      s.mem.wf = true ∧ s.k.toNat ≠ textGroups s.len.toNat ∧
        decGroup (sourceGroup s (4 * s.k.toNat)) = some [0x4D, 0x61, 0x6E] ∧ ∃ t, exec .dec s = .next t) ∧
      (let s := running .dec 0x1000 8 0x2000 twfutwe 2 5;
        s.mem.wf = true ∧ s.k.toNat = textGroups s.len.toNat ∧ ∃ t, exec .dec s = .next t) :=
  ⟨⟨by decide, by decide, by decide, next_of_look (by decide)⟩, by decide, by decide, next_of_look (by decide)⟩

/-- A memory that differs outside the source only; next states, and the faults of a null source. -/
theorem witness_ReadOnlyOperationsReadTheSource :
    (let s := issued .val 0x1000 8 0 twfutwe;
      s.k.toNat ≤ textGroups s.len.toNat ∧
        (∀ i, i < s.len.toNat → (s.mem.write 0x3000 0x99).read (s.src.toNat + i) = s.mem.read (s.src.toNat + i)) ∧
        (∃ t, exec .decsz s = .next t) ∧ (∃ t, exec .val s = .next t)) ∧
      (let s := issued .val 0 8 0 [];
        s.k.toNat ≤ textGroups s.len.toNat ∧
          (∀ i, i < s.len.toNat → (s.mem.write 0x3000 0x99).read (s.src.toNat + i) = s.mem.read (s.src.toNat + i)) ∧
          faultOf (exec .decsz s) = some .nullBase ∧ faultOf (exec .val s) = some .nullBase) :=
  ⟨⟨by decide, by decide, next_of_look (by decide), next_of_look (by decide)⟩, by decide, by decide, by decide, by decide⟩

/-- The first and the last legal code, and the illegal words beside them. -/
theorem witness_CommandIssue :
    Config.minWidth ≤ (ended [.write 0 1]).xw ∧
      (ended [.write 0 1]).status.state ≠ .busy ∧ (ended [.write 0 1]).inputs = [.write 0 (1 : Word 32)] ∧
      (ended [.write 0 5]).status.state ≠ .busy ∧ (ended [.write 0 5]).inputs = [.write 0 (5 : Word 32)] ∧
      (ended [.write 0 0]).ownedNext = none ∧
      (ended [.write 0 0]).inputs = [.write 0 (0 : Word 32)] ∧ (ended [.write 0 6]).inputs = [.write 0 (6 : Word 32)] ∧
      (ended [.write 0 8]).inputs = [.write 0 (8 : Word 32)] := by
  decide

theorem witness_OperandWrites :
    (ended [.write 1 9]).status.state ≠ .busy ∧ (ended [.write 1 9]).inputs = [.write 1 (9 : Word 32)] ∧
      (ended [.write 2 9]).status.state ≠ .busy ∧ (ended [.write 2 9]).inputs = [.write 2 (9 : Word 32)] ∧
      (ended [.write 3 9]).status.state ≠ .busy ∧ (ended [.write 3 9]).inputs = [.write 3 (9 : Word 32)] := by
  decide

/-- A BUSY block with moves to come. -/
def busyWith (ms : List (Move 32)) : State := { issued .enc 0x1000 3 0x2000 twfutwe with inputs := ms }

theorem witness_BusyWritesIgnored :
    ((busyWith [.write 0 9]).status.state = .busy ∧ 0 ≤ 3 ∧ (busyWith [.write 0 9]).inputs = [.write 0 (9 : Word 32)]) ∧
      ((busyWith [.write 3 9]).status.state = .busy ∧ 3 ≤ 3 ∧
        (busyWith [.write 3 9]).inputs = [.write 3 (9 : Word 32)]) := by
  decide

theorem witness_ReadOnlyWritesIgnored :
    (4 ≤ 4 ∧ 4 ≤ 7 ∧ (ended [.write 4 9]).inputs = [.write 4 (9 : Word 32)]) ∧
      (4 ≤ 7 ∧ 7 ≤ 7 ∧ (busyWith [.write 7 9]).inputs = [.write 7 (9 : Word 32)]) := by
  decide

/-- The last register that exists, and the first that does not; a load beside an open destination, one of its last byte,
and one of a byte another agent has stored to. -/
theorem witness_HostReads :
    ((ended [.read 7]).inputs = [.read 7] ∧
      (let s := ended [.read 7];
        [s.cmd, s.src, s.len, s.dst, statusWord s.xw s.status, s.result, s.errpos, s.errchar][7]? = some s.errchar)) ∧
      ((ended [.read 8]).inputs = [.read 8] ∧ 7 < 8) ∧
      ((busyWith [.load 0x2004]).inputs = [.load (0x2004 : Word 32)] ∧
        ∀ w ∈ (busyWith [.load 0x2004]).windows, w.dst.has 0x2004 = false) ∧
      ((busyWith [.load 0x2003]).inputs = [.load (0x2003 : Word 32)] ∧
        (∃ w ∈ (busyWith [.load 0x2003]).windows, w.dst.has 0x2003 = true) ∧
        ∀ w ∈ (busyWith [.load 0x2003]).windows, w.dst.has 0x2003 = true → 0x2003 ∉ w.hits) := by
  decide

theorem witness_StatusWordLayout : Config.minWidth ≤ 8 ∧ (statusWord 8 ⟨.error, .illegalOp⟩).toNat = 0x13 := by decide

/-- Off the buffers, with no operation open and with one; on the last address of the source and of the destination of an
open one; a command with no operation open. -/
theorem witness_OutsideStores :
    (let s := ended [.store 0x1000 7];
      s.mem.wf = true ∧ s.inputs = [.store (0x1000 : Word 32) 7] ∧ contested s 0x1000 = false ∧ raceAt s 0x1000 = none) ∧
      (let s := busyWith [.store 0x1003 7];
        s.mem.wf = true ∧ s.inputs = [.store (0x1003 : Word 32) 7] ∧ contested s 0x1003 = false ∧
          raceAt s 0x1003 = none) ∧
      (let s := busyWith [.store 0x1002 7];
        s.mem.wf = true ∧ s.inputs = [.store (0x1002 : Word 32) 7] ∧ contested s 0x1002 = true ∧
          inDest (noteStore s 0x1002) 0x1002 = false) ∧
      (let s := busyWith [.store 0x2003 7];
        s.mem.wf = true ∧ s.inputs = [.store (0x2003 : Word 32) 7] ∧ contested s 0x2003 = true) ∧
      ((decAtHand []).windows = [] ∧ decode (5 : Word 32) = .instr .dec ∧
        contested (issueCommand (decAtHand []) (5 : Word 32)) 0x1007 = true ∧
        contested (issueCommand (decAtHand []) (5 : Word 32)) 0x2005 = true ∧
        contested (issueCommand (decAtHand []) (5 : Word 32)) 0x2006 = false) := by
  decide

theorem witness_ResetClearsTheBlock :
    (busyWith [.reset]).inputs = [.reset] ∧ ∃ t, step (busyWith [.reset]) = .next t :=
  ⟨by decide, _, rfl⟩

theorem witness_ResetInsideAStep :
    let s := busyWith [.resetMidStep]
    s.mem.wf = true ∧ s.inputs = [.resetMidStep] ∧ s.status.state = .busy ∧ decode s.cmd = .instr .enc ∧
      ∃ t, exec .enc { s with inputs := [] } = .next t :=
  ⟨by decide, by decide, by decide, by decide, next_of_look (by decide)⟩

theorem witness_StepRunsTheCommand :
    (busyWith []).status.state = .busy ∧ decode (busyWith []).cmd = .instr .enc ∧ (busyWith []).inputs = [] ∧
      (busyWith [.engine]).inputs = [.engine] ∧ (busyWith [.wait]).inputs = [.wait] := by
  decide

theorem witness_FetchWordRunsTheCommand :
    Config.minWidth ≤ State.reset.xw ∧ 5 < 2 ^ 32 ∧ 5 < 2 ^ State.reset.xw ∧
      decode (BitVec.ofNat State.reset.xw 5) = .instr .dec := by
  decide

theorem witness_EngineIdlesUnlessBusy :
    State.reset.status.state ≠ .busy ∧ State.reset.inputs = [] ∧
      (ended [.engine]).status.state ≠ .busy ∧ (ended [.engine]).inputs = [.engine] := by
  decide

/-- Each transition happens: a command, a finishing step, a reset, and a step that stays. -/
theorem witness_ControlFlowTransitions :
    look (step (ended [.write 0 1])) (fun t => t.status.state) = some .busy ∧
      look (step (ended [.write 0 0])) (fun t => t.status.state) = some .error ∧
      look (step (issued .enc 0 0 0 [])) (fun t => t.status.state) = some .done ∧
      look (step (busyWith [.reset])) (fun t => t.status.state) = some .idle ∧
      look (step (busyWith [])) (fun t => t.status.state) = some .busy := by
  decide

/-- The invariant of a block in the middle of a DEC, and of one in ERROR. -/
theorem inv_running : Inv (running .dec 0x1000 8 0x2000 twfutwe 1 3) where
  width := by decide
  memWf := by decide
  memBelow := by decide
  coherent := by decide
  report := fun _ => by decide
  errchar := by decide
  errorResult := by decide
  idle := by decide
  busy := fun _ => ⟨.dec, by decide, by decide, by decide, by decide, by decide⟩
  window := fun _ => by decide

theorem inv_issued (i : Instr) (src len dst : Word 32) (h : decode (encode 32 i) = .instr i) :
    Inv (issued i src len dst twfutwe) where
  width := rfl
  memWf := show twfutwe.wf = true by decide
  memBelow := show twfutwe.below (2 ^ 32) = true by decide
  coherent := rfl
  report := fun _ => ⟨rfl, rfl⟩
  errchar := show (0 : Word 32).toNat < 256 by decide
  errorResult := fun _ => rfl
  idle := fun h => by cases h
  busy := fun _ => ⟨i, h, by cases i <;> simp [issued, progress]⟩
  window := fun _ => by simp [issued]

theorem witness_StepKeepsInvariant :
    Inv (issued .enc 0x1000 3 0x2000 twfutwe) ∧ ∃ t, step (issued .enc 0x1000 3 0x2000 twfutwe) = .next t :=
  ⟨inv_issued _ _ _ _ (by decide), next_of_look (by decide)⟩

/-- Each operation from a state with the invariant, ending in DONE. -/
theorem witness_ResultWhenDone :
    (Inv (issued .encsz 0 3 0 twfutwe) ∧
      look (exec .encsz (issued .encsz 0 3 0 twfutwe)) (fun t => t.status.state) = some .done) ∧
      (Inv (issued .enc 0 0 0 twfutwe) ∧
        look (exec .enc (issued .enc 0 0 0 twfutwe)) (fun t => t.status.state) = some .done) ∧
      (Inv (issued .decsz 0x1000 8 0 twfutwe) ∧
        look (exec .decsz (issued .decsz 0x1000 8 0 twfutwe)) (fun t => t.status.state) = some .done) ∧
      (Inv (issued .val 0 0 0 twfutwe) ∧
        look (exec .val (issued .val 0 0 0 twfutwe)) (fun t => t.status.state) = some .done) ∧
      (Inv (issued .dec 0 0 0 twfutwe) ∧
        look (exec .dec (issued .dec 0 0 0 twfutwe)) (fun t => t.status.state) = some .done) :=
  ⟨⟨inv_issued _ _ _ _ (by decide), by decide⟩, ⟨inv_issued _ _ _ _ (by decide), by decide⟩,
    ⟨inv_issued _ _ _ _ (by decide), by decide⟩, ⟨inv_issued _ _ _ _ (by decide), by decide⟩,
    inv_issued _ _ _ _ (by decide), by decide⟩

/-- Three bytes at 0x1000 encoded to 0x2000. -/
theorem witness_EncodeRun :
    let s := issued .enc 0x1000 3 0x2000 (holding 0x1000 [0x4D, 0x61, 0x6E])
    started .enc s ∧ s.mem.wf = true ∧ 4 * binGroups s.len.toNat < 2 ^ s.xw ∧
      (∀ i, i < s.len.toNat → SrcOk s i) ∧ (∀ j, j < 4 * binGroups s.len.toNat → DstOk s j) ∧
      noLiveOverlap s (binGroups s.len.toNat) 3 4 := by
  unfold started noLiveOverlap
  decide

/-- A valid string, one with an offender, and a bad length with nothing to read. -/
theorem witness_ValidateRun :
    (let s := issued .val 0x1000 8 0 twfutwe;
      started .val s ∧ (s.len.toNat % 4 = 0 → ∀ i, i < s.len.toNat → SrcOk s i) ∧ validText (sourceBytes s) = true) ∧
      (let s := issued .val 0x1000 8 0 twfutwpu;
        started .val s ∧ (s.len.toNat % 4 = 0 → ∀ i, i < s.len.toNat → SrcOk s i) ∧
          validText (sourceBytes s) = false) ∧
      (let s := issued .val 0 3 0 twfutwe;
        started .val s ∧ (s.len.toNat % 4 = 0 → ∀ i, i < s.len.toNat → SrcOk s i) ∧
          validText (sourceBytes s) = false) := by
  unfold started
  exact ⟨⟨by decide, fun _ => by decide, by decide⟩, ⟨by decide, fun _ => by decide, by decide⟩, by decide,
    fun h => absurd h (by decide), by decide⟩

/-- In place. -/
theorem witness_DecodeRun :
    let s := issued .dec 0x1000 8 0x1000 twfutwe
    started .dec s ∧ s.mem.wf = true ∧ validText (sourceBytes s) = true ∧ (∀ i, i < s.len.toNat → SrcOk s i) ∧
      (∀ j, j < (decText (sourceBytes s)).length → DstOk s j) ∧ noLiveOverlap s (textGroups s.len.toNat) 4 3 := by
  unfold started noLiveOverlap
  decide

/-- DECSZ; and the destination range of a DEC at `DST = SRC + 1`, just above the source, and inside it. -/
theorem witness_DecodedSizeIsExact :
    (let s := issued .decsz 0x1000 8 0 twfutwe;
      started .decsz s ∧ validText (sourceBytes s) = true ∧ (∀ i, i < s.len.toNat → SrcOk s i)) ∧
      (let s := issued .dec 0x1000 8 0x1001 twfutwe;
        s.mem.wf = true ∧ validText (sourceBytes s) = true ∧ noLiveOverlap s (textGroups s.len.toNat) 4 3 ∧
          destRange s .dec = ⟨0x1001, 5⟩) ∧
      (let s := issued .dec 0x1000 8 0x1008 twfutwe;
        s.mem.wf = true ∧ validText (sourceBytes s) = true ∧ noLiveOverlap s (textGroups s.len.toNat) 4 3 ∧
          destRange s .dec = ⟨0x1008, 5⟩) ∧
      (let s := issued .dec 0x1000 4 0x1003 (holding 0x1000 [0x54, 0x51, 0x3D, 0x3D]);
        s.mem.wf = true ∧ validText (sourceBytes s) = true ∧ noLiveOverlap s (textGroups s.len.toNat) 4 3 ∧
          destRange s .dec = ⟨0x1003, 1⟩) := by
  unfold started noLiveOverlap
  refine ⟨?_, ?_, ?_, ?_⟩ <;> decide

/-- `DST = SRC + 1`, the last address the rule allows. -/
theorem witness_InPlaceDecodeMeetsThePremise :
    let s := issued .dec 0x1000 8 0x1001 twfutwe
    s.dst.toNat ≤ s.src.toNat + 1 ∧ s.dst.toNat = s.src.toNat + 1 := by decide

theorem witness_OperationsEnd :
    let s := running .dec 0x1000 8 0x2000 twfutwe 1 3
    Inv s ∧ s.status.state = .busy ∧ decode s.cmd = .instr .dec ∧ s.inputs = [] :=
  ⟨inv_running, by decide, by decide, by decide⟩

theorem witness_ValidateIsIdempotent :
    let s := issued .val 0x1000 8 0 twfutwe
    started .val s ∧ look (runSteps 3 s) (fun t => t.status.state) = some .done := by
  unfold started
  decide

theorem witness_CommandForgetsThePast :
    (ended []).status.state ≠ .busy ∧ (⟨.idle, .none⟩ : Status).state ≠ .busy := by decide

end Sys2Proof.Tests
end

