-- ==== Sys2Proof/Proofs/HostWrites.lean ====
section
/-! PROOFS. Host writes to the registers other than CMD (10_state.md rules R34, R36): how a step reaches the write, what
each register does with it, and the two obligations. -/

namespace Sys2Proof.Machine

/-- With a register write next in the list, a step uses the move up and is that write. -/
theorem step_of_write {s : State} {i : Nat} {v : Word s.xw} {rest : List (Move s.xw)}
    (h : s.inputs = .write i v :: rest) : step s = hostWrite { s with inputs := rest } i v := by
  unfold step takeTurn
  rw [h]

theorem isBusy_eq_false {s : State} (h : s.status.state ≠ .busy) : s.isBusy = false :=
  decide_eq_false h

/-! ### What each register does with a write -/

section NotBusy
variable {s : State} (hb : s.status.state ≠ .busy) (v : Word s.xw)
include hb

theorem hostWrite_src : hostWrite s 1 v = .next { s with src := v } := by
  simp [hostWrite, isBusy_eq_false hb]

theorem hostWrite_len : hostWrite s 2 v = .next { s with len := v } := by
  simp [hostWrite, isBusy_eq_false hb]

theorem hostWrite_dst : hostWrite s 3 v = .next { s with dst := v } := by
  simp [hostWrite, isBusy_eq_false hb]

end NotBusy

/-- Registers 4 to 7 ignore the write, whatever the state of the block. -/
theorem hostWrite_readOnly {i : Nat} (h4 : 4 ≤ i) (h7 : i ≤ 7) (s : State) (v : Word s.xw) :
    hostWrite s i v = .next s := by
  obtain rfl | rfl | rfl | rfl : i = 4 ∨ i = 5 ∨ i = 6 ∨ i = 7 := by omega
  all_goals rfl

/-! ### The obligations -/

/-- Settles O37: the step is the write, and each operand register takes the value of a write while not BUSY. -/
theorem operandWrites : Obligations.OperandWrites := by
  intro s v rest hb
  refine ⟨fun h => ?src, fun h => ?len, fun h => ?dst⟩
  case src => exact (step_of_write h).trans (hostWrite_src (s := { s with inputs := rest }) hb v)
  case len => exact (step_of_write h).trans (hostWrite_len (s := { s with inputs := rest }) hb v)
  case dst => exact (step_of_write h).trans (hostWrite_dst (s := { s with inputs := rest }) hb v)

/-- Settles O39: the step is the write, which registers 4 to 7 ignore. -/
theorem readOnlyWritesIgnored : Obligations.ReadOnlyWritesIgnored := by
  intro s i v rest h4 h7 h
  exact (step_of_write h).trans (hostWrite_readOnly h4 h7 { s with inputs := rest } v)

end Sys2Proof.Machine
end

