-- ==== Sys2Proof/Proofs/EncoderSize.lean ====
section
/-! PROOFS. The encoded size against a limit (40_encoder.md rule R102): for which lengths it fits, when ENCSZ stops with
SIZE_OVERFLOW, and the obligation. -/

namespace Sys2Proof.Machine

/-- The size `4 * ceil(n / 3)` is below `M` exactly when the number of groups is at most `(M - 1) div 4`. -/
theorem encSize_lt_iff {M : Nat} (hM : 0 < M) (n : Nat) : encSize n < M ↔ n ≤ (M - 1) / 4 * 3 :=
  calc encSize n < M
    _ ↔ (n + 2) / 3 * 4 ≤ M - 1 := Nat.lt_iff_le_pred hM
    _ ↔ (n + 2) / 3 ≤ (M - 1) / 4 := (Nat.le_div_iff_mul_le (by decide)).symm
    _ ↔ n ≤ (M - 1) / 4 * 3 := by omega

theorem two_pow_le_encSize_iff (w n : Nat) : 2 ^ w ≤ encSize n ↔ (2 ^ w - 1) / 4 * 3 < n := by
  rw [← not_lt, encSize_lt_iff (Nat.two_pow_pos w), not_le]

/-- ENCSZ stops with SIZE_OVERFLOW exactly when its own size check fails. -/
theorem execEncsz_eq_sizeOverflow_iff (s : State) :
    execEncsz s = .fault .sizeOverflow ↔ 2 ^ s.xw ≤ encSize s.len.toNat := by
  unfold execEncsz
  split
  case isTrue h => exact iff_of_true rfl h
  case isFalse h => exact iff_of_false nofun h

/-! ### The obligation -/

/-- Settles O20: ENCSZ stops exactly when its size check fails, that is when LEN is above the bound; the rest are the
rule's own numbers. -/
theorem encszOverflowBound : Obligations.EncszOverflowBound := by
  refine ⟨fun s => ?fault, fun s => two_pow_le_encSize_iff s.xw s.len.toNat, ?numbers⟩
  case fault => exact (execEncsz_eq_sizeOverflow_iff s).trans (two_pow_le_encSize_iff s.xw s.len.toNat)
  case numbers => decide

end Sys2Proof.Machine
end

