-- ==== Sys2Proof/Proofs/GroupCheck.lean ====
section
/-! PROOFS. The group check of the decoder (41_decoder.md rule R125): its scan as "the least position that offends",
what it reports there, and the obligation. -/

namespace Sys2Proof.Machine

/-- A scan of `0, 1, ..., n - 1` answers at the least position that has an answer. -/
theorem findSome?_range_eq_some_iff {α : Type} {f : Nat → Option α} {n : Nat} {a : α} :
    (List.range n).findSome? f = some a ↔ ∃ i, i < n ∧ f i = some a ∧ ∀ j, j < i → f j = none := by
  rw [← List.map_coe_finRange_eq_range, List.findSome?_map, ← Fin.findSome?_eq_findSome?_finRange,
    Fin.findSome?_eq_some_iff]
  constructor
  · rintro ⟨i, hi, hbefore⟩
    exact ⟨i, i.isLt, hi, fun j hj => hbefore ⟨j, hj.trans i.isLt⟩ hj⟩
  · rintro ⟨i, hlt, hi, hbefore⟩
    exact ⟨⟨i, hlt⟩, hi, fun j hj => hbefore j hj⟩

/-- The pad character is the only one of class Pad (R85). -/
theorem eq_padChar_of_charClass_eq_pad : ∀ {c : Byte}, charClass c = .pad → c = padChar := by
  decide

/-- What the scan finds at position `j`: an offence there, reported with the position and the character. -/
def offenderAt (last : Bool) (g : TextGroup) (j : Nat) : Option Offender :=
  (offence last g j).map fun e => ⟨e, j, g.get j⟩

theorem chkGroup_eq_findSome? (last : Bool) (g : TextGroup) :
    chkGroup last g = (List.range 4).findSome? (offenderAt last g) := rfl

theorem offenderAt_eq_none_iff (last : Bool) (g : TextGroup) (j : Nat) :
    offenderAt last g j = none ↔ ¬ illegalAt last g j :=
  Option.map_eq_none_iff.trans (offence_eq_none_iff last g j)

/-- The report names its own position; its character is the group's, which for a pad is `=`. -/
theorem offenderAt_eq_some_iff (last : Bool) (g : TextGroup) (j : Nat) (o : Offender) :
    offenderAt last g j = some o ↔ o.pos = j ∧ illegalAt last g j ∧
      ((charClass (g.get j) = .bad ∧ o.code = .char ∧ o.ch = g.get j) ∨
        (charClass (g.get j) = .pad ∧ o.code = .pad ∧ o.ch = padChar)) := by
  obtain ⟨code, pos, ch⟩ := o
  simp only [offenderAt, Option.map_eq_some_iff, offence_eq_some_iff, Offender.mk.injEq]
  constructor
  · rintro ⟨e, ⟨hill, ⟨hbad, rfl⟩ | ⟨hpad, rfl⟩⟩, rfl, rfl, rfl⟩
    · exact ⟨rfl, hill, .inl ⟨hbad, rfl, rfl⟩⟩
    · exact ⟨rfl, hill, .inr ⟨hpad, rfl, eq_padChar_of_charClass_eq_pad hpad⟩⟩
  · rintro ⟨rfl, hill, ⟨hbad, rfl, rfl⟩ | ⟨hpad, rfl, rfl⟩⟩
    · exact ⟨_, ⟨hill, .inl ⟨hbad, rfl⟩⟩, rfl, rfl, rfl⟩
    · exact ⟨_, ⟨hill, .inr ⟨hpad, rfl⟩⟩, rfl, rfl, eq_padChar_of_charClass_eq_pad hpad⟩

/-- No report exactly when no character offends. -/
theorem chkGroup_eq_none_iff (last : Bool) (g : TextGroup) :
    chkGroup last g = none ↔ ∀ j, j < 4 → ¬ illegalAt last g j := by
  simp only [chkGroup_eq_findSome?, List.findSome?_eq_none_iff, List.mem_range, offenderAt_eq_none_iff]

/-- A report is the report of its own position, with no offence before it. -/
theorem chkGroup_eq_some_iff (last : Bool) (g : TextGroup) (o : Offender) :
    chkGroup last g = some o ↔
      o.pos < 4 ∧ offenderAt last g o.pos = some o ∧ ∀ j, j < o.pos → ¬ illegalAt last g j := by
  simp only [chkGroup_eq_findSome?, findSome?_range_eq_some_iff, offenderAt_eq_none_iff]
  constructor
  · rintro ⟨j, hj, hat, hbefore⟩
    obtain ⟨rfl, -⟩ := (offenderAt_eq_some_iff last g j o).1 hat
    exact ⟨hj, hat, hbefore⟩
  · exact fun h => ⟨o.pos, h⟩

/-! ### The obligation -/

/-- Settles O9: the check is a scan in ascending order, so its report is the one of the least position that offends. -/
theorem chkGroupFirstOffender : Obligations.ChkGroupFirstOffender := by
  intro last g
  refine ⟨chkGroup_eq_none_iff last g, fun o => ?_⟩
  rw [chkGroup_eq_some_iff, offenderAt_eq_some_iff]
  constructor
  · rintro ⟨hlt, ⟨-, hill, hreport⟩, hbefore⟩
    exact ⟨hlt, hill, hbefore, hreport⟩
  · rintro ⟨hlt, hill, hbefore, hreport⟩
    exact ⟨hlt, ⟨rfl, hill, hreport⟩, hbefore⟩

end Sys2Proof.Machine
end

