-- ==== Sys2Proof/Proofs/CommandWords.lean ====
section
/-! PROOFS. Command words (30_encoding.md sections 5, 6): what the decoder answers by the value of the word, its
agreement with the encoder, and the obligations. -/

namespace Sys2Proof

theorem opCode_le_five (i : Instr) : opCode i ≤ 5 := by cases i <;> decide

/-- A width the spec admits has the three bits of `OP`. -/
theorem three_le_of_minWidth {n : Nat} (hn : Config.minWidth ≤ n) : 3 ≤ n :=
  le_trans (by decide) hn

section Decoder
variable {n : Nat} (hn : 3 ≤ n) (w : Word n)
include hn

/-- A word names an operation exactly when its value is the operation's code. -/
theorem decode_eq_instr_iff (i : Instr) : decode w = .instr i ↔ w.toNat = opCode i := by
  have hi := opCode_le_five i
  rw [decode_eq hn]
  split
  case isTrue h => exact iff_of_false nofun (by omega)
  case isFalse h =>
    generalize w.toNat = x at h
    obtain hx : x < 8 := by omega
    interval_cases x <;> cases i <;> decide

theorem decode_eq_reservedBits_iff : decode w = .reject .reservedBits ↔ 8 ≤ w.toNat := by
  rw [decode_eq hn]
  split
  case isTrue h => exact iff_of_true rfl h
  case isFalse h =>
    refine iff_of_false ?_ h
    split <;> nofun

theorem decode_eq_reservedOp_iff : decode w = .reject .reservedOp ↔ w.toNat = 0 ∨ w.toNat = 6 ∨ w.toNat = 7 := by
  rw [decode_eq hn]
  split
  case isTrue h => exact iff_of_false nofun (by omega)
  case isFalse h =>
    generalize w.toNat = x at h
    obtain hx : x < 8 := by omega
    interval_cases x <;> decide

end Decoder

/-- The value of an operation's command word is its code. -/
theorem encode_toNat {n : Nat} (hn : 3 ≤ n) (i : Instr) : (encode n i).toNat = opCode i := by
  have hi := opCode_le_five i
  have hp : 2 ^ 3 ≤ 2 ^ n := Nat.pow_le_pow_right (by decide) hn
  exact Nat.mod_eq_of_lt (by omega)

/-! ### The obligations -/

/-- Settles O2: both sides say that the word's value is the operation's code. -/
theorem decodeExactlyEncode : Obligations.DecodeExactlyEncode := by
  intro n hn w i
  have h3 := three_le_of_minWidth hn
  rw [decode_eq_instr_iff h3, ← encode_toNat h3, BitVec.toNat_inj]

/-- Settles O3, by the value of the word. -/
theorem decodeRejectsIllegalWords : Obligations.DecodeRejectsIllegalWords := by
  intro n hn w
  have h3 := three_le_of_minWidth hn
  exact ⟨decode_eq_reservedBits_iff h3 w, decode_eq_reservedOp_iff h3 w⟩

/-- Settles O1: ten fixed words. -/
theorem commandWordsDecode : Obligations.CommandWordsDecode := by
  unfold Obligations.CommandWordsDecode
  decide

end Sys2Proof
end

