-- ==== Sys2Proof/Proofs/Tables.lean ====
section
/-! PROOFS. The two tables of the block (30_encoding.md sections 2, 3): each inverts the other, what the classes of a
character say of it, and the obligations. The tables have 64 and 256 entries; each fact about single entries is checked
entry by entry, once. -/

namespace Sys2Proof.Machine

@[simp] theorem charClass_alphabet : ∀ v : Sextet, charClass (alphabet v) = .data v := by
  decide

theorem alphabet_injective : Function.Injective alphabet := fun i j h => by
  have hclass := congrArg charClass h
  rw [charClass_alphabet, charClass_alphabet] at hclass
  exact CharClass.data.inj hclass

/-- The one character of a class, where there is one. -/
def CharClass.char : CharClass → Option Byte
  | .data v => some (alphabet v)
  | .pad => some padChar
  | .bad => none

theorem char_charClass : ∀ c : Byte, charClass c ≠ .bad → (charClass c).char = some c := by
  decide

theorem charClass_eq_data_iff {c : Byte} {v : Sextet} : charClass c = .data v ↔ alphabet v = c := by
  constructor
  · intro h
    have hc := char_charClass c (h ▸ nofun)
    rw [h] at hc
    exact Option.some.inj hc
  · rintro rfl
    exact charClass_alphabet v

@[simp] theorem charClass_padChar : charClass padChar = .pad := by decide

theorem charClass_eq_pad_iff {c : Byte} : charClass c = .pad ↔ c = padChar :=
  ⟨eq_padChar_of_charClass_eq_pad, fun h => h ▸ charClass_padChar⟩

theorem charClass_eq_bad_iff {c : Byte} : charClass c = .bad ↔ c ≠ padChar ∧ ∀ v : Sextet, alphabet v ≠ c := by
  simp only [ne_eq, ← charClass_eq_pad_iff, ← charClass_eq_data_iff]
  cases charClass c <;> simp

/-! ### The obligations -/

/-- Settles O4: the closed form is read off the table; the inverse table makes the alphabet injective. -/
theorem alphabetClosedForm : Obligations.AlphabetClosedForm := by
  refine ⟨?closedForm, fun i j h => alphabet_injective h⟩
  case closedForm => decide

/-- Settles O5, one law per class. -/
theorem charClassInvertsAlphabet : Obligations.CharClassInvertsAlphabet :=
  ⟨fun _ _ => charClass_eq_data_iff, fun _ => charClass_eq_pad_iff, fun _ => charClass_eq_bad_iff⟩

end Sys2Proof.Machine
end

