-- ==== Sys2Proof/Proofs/Groups.lean ====
section
/-! PROOFS. The functions on one group (40_encoder.md section 3, 41_decoder.md sections 1, 3, 4): the bits of the group
word, the three shapes, EncGroup and DecGroup on them, and the obligations. -/

namespace Sys2Proof.Machine

/-! ### The bits of the group word (30_encoding.md section 4) -/

section Lanes
variable (b0 b1 b2 : Byte)

theorem sextetOf_wordOfBytes_zero : sextetOf (wordOfBytes b0 b1 b2) 0 = b0.extractLsb' 2 6 := by
  apply BitVec.eq_of_toNat_eq
  simp only [sextetOf_toNat, wordOfBytes_toNat, BitVec.extractLsb'_toNat, Nat.shiftRight_eq_div_pow]
  omega

theorem sextetOf_wordOfBytes_one :
    sextetOf (wordOfBytes b0 b1 b2) 1 = b0.extractLsb' 0 2 ++ b1.extractLsb' 4 4 := by
  apply BitVec.eq_of_toNat_eq
  simp only [sextetOf_toNat, wordOfBytes_toNat, toNat_append_eq_add, BitVec.extractLsb'_toNat,
    Nat.shiftRight_eq_div_pow]
  omega

theorem sextetOf_wordOfBytes_two :
    sextetOf (wordOfBytes b0 b1 b2) 2 = b1.extractLsb' 0 4 ++ b2.extractLsb' 6 2 := by
  apply BitVec.eq_of_toNat_eq
  simp only [sextetOf_toNat, wordOfBytes_toNat, toNat_append_eq_add, BitVec.extractLsb'_toNat,
    Nat.shiftRight_eq_div_pow]
  omega

theorem sextetOf_wordOfBytes_three : sextetOf (wordOfBytes b0 b1 b2) 3 = b2.extractLsb' 0 6 := by
  apply BitVec.eq_of_toNat_eq
  simp only [sextetOf_toNat, wordOfBytes_toNat, BitVec.extractLsb'_toNat, Nat.shiftRight_eq_div_pow]
  omega

theorem byteOf_wordOfBytes :
    byteOf (wordOfBytes b0 b1 b2) 0 = b0 ∧ byteOf (wordOfBytes b0 b1 b2) 1 = b1 ∧
      byteOf (wordOfBytes b0 b1 b2) 2 = b2 := by
  refine ⟨?_, ?_, ?_⟩
  all_goals
    apply BitVec.eq_of_toNat_eq
    simp only [byteOf_toNat, wordOfBytes_toNat]
    omega

end Lanes

section Bytes
variable (v0 v1 v2 v3 : Sextet)

theorem byteOf_wordOfSextets_zero : byteOf (wordOfSextets v0 v1 v2 v3) 0 = v0 ++ v1.extractLsb' 4 2 := by
  apply BitVec.eq_of_toNat_eq
  simp only [byteOf_toNat, wordOfSextets_toNat, toNat_append_eq_add, BitVec.extractLsb'_toNat,
    Nat.shiftRight_eq_div_pow]
  omega

theorem byteOf_wordOfSextets_one :
    byteOf (wordOfSextets v0 v1 v2 v3) 1 = v1.extractLsb' 0 4 ++ v2.extractLsb' 2 4 := by
  apply BitVec.eq_of_toNat_eq
  simp only [byteOf_toNat, wordOfSextets_toNat, toNat_append_eq_add, BitVec.extractLsb'_toNat,
    Nat.shiftRight_eq_div_pow]
  omega

theorem byteOf_wordOfSextets_two : byteOf (wordOfSextets v0 v1 v2 v3) 2 = v2.extractLsb' 0 2 ++ v3 := by
  apply BitVec.eq_of_toNat_eq
  simp only [byteOf_toNat, wordOfSextets_toNat, toNat_append_eq_add, BitVec.extractLsb'_toNat,
    Nat.shiftRight_eq_div_pow]
  omega

theorem sextetOf_wordOfSextets :
    sextetOf (wordOfSextets v0 v1 v2 v3) 0 = v0 ∧ sextetOf (wordOfSextets v0 v1 v2 v3) 1 = v1 ∧
      sextetOf (wordOfSextets v0 v1 v2 v3) 2 = v2 ∧ sextetOf (wordOfSextets v0 v1 v2 v3) 3 = v3 := by
  refine ⟨?_, ?_, ?_, ?_⟩
  all_goals
    apply BitVec.eq_of_toNat_eq
    simp only [sextetOf_toNat, wordOfSextets_toNat]
    omega

end Bytes

/-- A group word is made of its sextets. -/
theorem wordOfSextets_sextetOf (w : GroupWord) :
    wordOfSextets (sextetOf w 0) (sextetOf w 1) (sextetOf w 2) (sextetOf w 3) = w := by
  apply BitVec.eq_of_toNat_eq
  simp only [wordOfSextets_toNat, sextetOf_toNat]
  omega

/-- A group word is made of its bytes. -/
theorem wordOfBytes_byteOf (w : GroupWord) : wordOfBytes (byteOf w 0) (byteOf w 1) (byteOf w 2) = w := by
  apply BitVec.eq_of_toNat_eq
  simp only [wordOfBytes_toNat, byteOf_toNat]
  omega

/-! ### The three shapes (R88) -/

theorem isData_iff {c : Byte} : isData c = true ↔ ∃ v, charClass c = .data v := by
  unfold isData
  cases charClass c <;> simp

theorem isPad_iff {c : Byte} : isPad c = true ↔ charClass c = .pad := decide_eq_true_iff

@[simp] theorem isPad_padChar : isPad padChar = true := by decide

@[simp] theorem isPad_alphabet (v : Sextet) : isPad (alphabet v) = false := by simp [isPad]

/-- The group of shape FULL that spells four sextets. -/
def fullGroup (v0 v1 v2 v3 : Sextet) : TextGroup := ⟨alphabet v0, alphabet v1, alphabet v2, alphabet v3⟩

/-- The group of shape PAD1 that spells three sextets. -/
def pad1Group (v0 v1 v2 : Sextet) : TextGroup := ⟨alphabet v0, alphabet v1, alphabet v2, padChar⟩

/-- The group of shape PAD2 that spells two sextets. -/
def pad2Group (v0 v1 : Sextet) : TextGroup := ⟨alphabet v0, alphabet v1, padChar, padChar⟩

theorem isData_iff_alphabet {c : Byte} : isData c = true ↔ ∃ v, c = alphabet v :=
  isData_iff.trans (exists_congr fun _ => charClass_eq_data_iff.trans eq_comm)

theorem isPad_iff_padChar {c : Byte} : isPad c = true ↔ c = padChar := isPad_iff.trans charClass_eq_pad_iff

theorem full_iff {g : TextGroup} : g.full = true ↔ ∃ v0 v1 v2 v3, g = fullGroup v0 v1 v2 v3 := by
  obtain ⟨c0, c1, c2, c3⟩ := g
  simp only [TextGroup.full, Bool.and_eq_true, isData_iff_alphabet, fullGroup, TextGroup.mk.injEq]
  constructor
  · rintro ⟨⟨⟨⟨v0, h0⟩, v1, h1⟩, v2, h2⟩, v3, h3⟩
    exact ⟨v0, v1, v2, v3, h0, h1, h2, h3⟩
  · rintro ⟨v0, v1, v2, v3, h0, h1, h2, h3⟩
    exact ⟨⟨⟨⟨v0, h0⟩, v1, h1⟩, v2, h2⟩, v3, h3⟩

theorem pad1_iff {g : TextGroup} : g.pad1 = true ↔ ∃ v0 v1 v2, g = pad1Group v0 v1 v2 := by
  obtain ⟨c0, c1, c2, c3⟩ := g
  simp only [TextGroup.pad1, Bool.and_eq_true, isData_iff_alphabet, isPad_iff_padChar, pad1Group, TextGroup.mk.injEq]
  constructor
  · rintro ⟨⟨⟨⟨v0, h0⟩, v1, h1⟩, v2, h2⟩, h3⟩
    exact ⟨v0, v1, v2, h0, h1, h2, h3⟩
  · rintro ⟨v0, v1, v2, h0, h1, h2, h3⟩
    exact ⟨⟨⟨⟨v0, h0⟩, v1, h1⟩, v2, h2⟩, h3⟩

theorem pad2_iff {g : TextGroup} : g.pad2 = true ↔ ∃ v0 v1, g = pad2Group v0 v1 := by
  obtain ⟨c0, c1, c2, c3⟩ := g
  simp only [TextGroup.pad2, Bool.and_eq_true, isData_iff_alphabet, isPad_iff_padChar, pad2Group, TextGroup.mk.injEq]
  constructor
  · rintro ⟨⟨⟨⟨v0, h0⟩, v1, h1⟩, h2⟩, h3⟩
    exact ⟨v0, v1, h0, h1, h2, h3⟩
  · rintro ⟨v0, v1, h0, h1, h2, h3⟩
    exact ⟨⟨⟨⟨v0, h0⟩, v1, h1⟩, h2⟩, h3⟩

/-! ### DecGroup on the shapes (R129) -/

theorem decGroup_fullGroup (v0 v1 v2 v3 : Sextet) :
    decGroup (fullGroup v0 v1 v2 v3) =
      some [byteOf (wordOfSextets v0 v1 v2 v3) 0, byteOf (wordOfSextets v0 v1 v2 v3) 1,
        byteOf (wordOfSextets v0 v1 v2 v3) 2] := by
  simp only [decGroup, fullGroup, charClass_alphabet]

theorem decGroup_pad1Group (v0 v1 v2 : Sextet) :
    decGroup (pad1Group v0 v1 v2) =
      some [byteOf (wordOfSextets v0 v1 v2 0) 0, byteOf (wordOfSextets v0 v1 v2 0) 1] := by
  simp only [decGroup, pad1Group, charClass_alphabet, charClass_padChar]

theorem decGroup_pad2Group (v0 v1 : Sextet) :
    decGroup (pad2Group v0 v1) = some [byteOf (wordOfSextets v0 v1 0 0) 0] := by
  simp only [decGroup, pad2Group, charClass_alphabet, charClass_padChar]

/-- A group of none of the shapes has no bytes. -/
theorem decGroup_eq_none_of_no_shape {g : TextGroup} (h : ¬ (g.full = true ∨ g.pad1 = true ∨ g.pad2 = true)) :
    decGroup g = none := by
  unfold decGroup
  split
  case h_1 h0 h1 h2 h3 => exact absurd (.inl (by simp [TextGroup.full, isData, h0, h1, h2, h3])) h
  case h_2 h0 h1 h2 h3 => exact absurd (.inr (.inl (by simp [TextGroup.pad1, isData, isPad, h0, h1, h2, h3]))) h
  case h_3 h0 h1 h2 h3 => exact absurd (.inr (.inr (by simp [TextGroup.pad2, isData, isPad, h0, h1, h2, h3]))) h
  case h_4 => rfl

/-- DecGroup is undefined exactly off the three shapes. -/
theorem decGroup_eq_none_iff {g : TextGroup} :
    decGroup g = none ↔ ¬ (g.full = true ∨ g.pad1 = true ∨ g.pad2 = true) := by
  refine ⟨fun hnone hshape => ?_, decGroup_eq_none_of_no_shape⟩
  rw [full_iff, pad1_iff, pad2_iff] at hshape
  obtain ⟨v0, v1, v2, v3, rfl⟩ | ⟨v0, v1, v2, rfl⟩ | ⟨v0, v1, rfl⟩ := hshape
  · simp [decGroup_fullGroup] at hnone
  · simp [decGroup_pad1Group] at hnone
  · simp [decGroup_pad2Group] at hnone

/-! ### EncGroup and the round trip (R103) -/

theorem encGroup_three (b0 b1 b2 : Byte) :
    encGroup 3 b0 b1 b2 =
      fullGroup (sextetOf (wordOfBytes b0 b1 b2) 0) (sextetOf (wordOfBytes b0 b1 b2) 1)
        (sextetOf (wordOfBytes b0 b1 b2) 2) (sextetOf (wordOfBytes b0 b1 b2) 3) := rfl

theorem encGroup_two (b0 b1 b2 : Byte) :
    encGroup 2 b0 b1 b2 =
      pad1Group (sextetOf (wordOfBytes b0 b1 0) 0) (sextetOf (wordOfBytes b0 b1 0) 1)
        (sextetOf (wordOfBytes b0 b1 0) 2) := rfl

theorem encGroup_one (b0 b1 b2 : Byte) :
    encGroup 1 b0 b1 b2 =
      pad2Group (sextetOf (wordOfBytes b0 0 0) 0) (sextetOf (wordOfBytes b0 0 0) 1) := rfl

/-- The zero fill leaves the last sextets of a partial group 0. -/
theorem sextetOf_partial (b0 b1 : Byte) :
    sextetOf (wordOfBytes b0 b1 0) 3 = 0 ∧ sextetOf (wordOfBytes b0 0 0) 2 = 0 := by
  rw [sextetOf_wordOfBytes_three, sextetOf_wordOfBytes_two]
  exact ⟨by decide, by decide⟩

theorem decGroup_encGroup_three (b0 b1 b2 : Byte) : decGroup (encGroup 3 b0 b1 b2) = some [b0, b1, b2] := by
  obtain ⟨h0, h1, h2⟩ := byteOf_wordOfBytes b0 b1 b2
  rw [encGroup_three, decGroup_fullGroup, wordOfSextets_sextetOf, h0, h1, h2]

theorem decGroup_encGroup_two (b0 b1 b2 : Byte) : decGroup (encGroup 2 b0 b1 b2) = some [b0, b1] := by
  obtain ⟨h0, h1, -⟩ := byteOf_wordOfBytes b0 b1 0
  rw [encGroup_two, decGroup_pad1Group, ← (sextetOf_partial b0 b1).1, wordOfSextets_sextetOf, h0, h1]

theorem decGroup_encGroup_one (b0 b1 b2 : Byte) : decGroup (encGroup 1 b0 b1 b2) = some [b0] := by
  have hw := wordOfSextets_sextetOf (wordOfBytes b0 0 0)
  rw [(sextetOf_partial b0 0).1, (sextetOf_partial b0 0).2] at hw
  rw [encGroup_one, decGroup_pad2Group, hw, (byteOf_wordOfBytes b0 0 0).1]

/-! ### The obligations -/

/-- Settles O6: the sextets of the group word, lane by lane; an absent byte is 0. -/
theorem encGroupLanes : Obligations.EncGroupLanes := by
  intro b0 b1 b2
  rw [encGroup_three, encGroup_two, encGroup_one]
  simp only [sextetOf_wordOfBytes_zero, sextetOf_wordOfBytes_one, sextetOf_wordOfBytes_two, sextetOf_wordOfBytes_three]
  exact ⟨rfl, rfl, rfl⟩

/-- Settles O7: DecGroup on each shape, the bytes of its word read off its sextets, and the three shapes exhaust it. -/
theorem decGroupByShape : Obligations.DecGroupByShape := by
  refine ⟨fun v0 v1 v2 v3 => ⟨?full, ?pad1, ?pad2⟩, fun g => decGroup_eq_none_iff⟩
  case full =>
    rw [← byteOf_wordOfSextets_zero v0 v1 v2 v3, ← byteOf_wordOfSextets_one v0 v1 v2 v3,
      ← byteOf_wordOfSextets_two v0 v1 v2 v3]
    exact decGroup_fullGroup v0 v1 v2 v3
  case pad1 =>
    rw [← byteOf_wordOfSextets_zero v0 v1 v2 0, ← byteOf_wordOfSextets_one v0 v1 v2 0]
    exact decGroup_pad1Group v0 v1 v2
  case pad2 =>
    rw [← byteOf_wordOfSextets_zero v0 v1 0 0]
    exact decGroup_pad2Group v0 v1

/-- Settles O8, by the number of bytes of the group. -/
theorem decGroupInvertsEncGroup : Obligations.DecGroupInvertsEncGroup := by
  intro m b0 b1 b2 h1 h3
  obtain rfl | rfl | rfl : m = 1 ∨ m = 2 ∨ m = 3 := by omega
  · exact decGroup_encGroup_one b0 b1 b2
  · exact decGroup_encGroup_two b0 b1 b2
  · exact decGroup_encGroup_three b0 b1 b2

/-- Settles O10: the four tests of TrailPad are the steps of the run, from the last character back. -/
theorem trailPadCountsFinalRun : Obligations.TrailPadCountsFinalRun := by
  intro g
  change trailPad g = ([g.c3, g.c2, g.c1, g.c0].takeWhile isPad).length
  simp only [trailPad, List.takeWhile_cons, List.takeWhile_nil]
  cases isPad g.c3 with
  | false => rfl
  | true =>
    cases isPad g.c2 with
    | false => rfl
    | true =>
      cases isPad g.c1 with
      | false => rfl
      | true => cases isPad g.c0 <;> rfl

end Sys2Proof.Machine
end

