-- ==== Sys2Proof/Proofs/Texts.lean ====
section
/-! PROOFS. Whole buffers (40_encoder.md section 4, 41_decoder.md sections 2 to 5): Enc, Dec and Valid group by group,
an induction over the valid strings, and the obligations. -/

namespace Sys2Proof.Machine

/-! ### A group in front of a string -/

@[simp] theorem length_toList (g : TextGroup) : g.toList.length = 4 := rfl

section Front
variable (g : TextGroup) (t : List Byte)

@[simp] theorem groupAt_append_zero : groupAt (g.toList ++ t) 0 = g := rfl

@[simp] theorem groupAt_append_succ (k : Nat) : groupAt (g.toList ++ t) (k + 1) = groupAt t k := by
  simp only [groupAt, TextGroup.toList, Nat.mul_succ, Nat.add_right_comm _ 4]
  rfl

@[simp] theorem textGroups_append : textGroups (g.toList ++ t).length = textGroups t.length + 1 := by
  simp only [textGroups, List.length_append, length_toList]
  omega

/-- A property of every group of `g.toList ++ t`: `g` is group 0, group `k` of `t` is group `k + 1`. -/
theorem forall_groups_append {P : Nat → TextGroup → Prop} :
    (∀ k, k < textGroups (g.toList ++ t).length → P k (groupAt (g.toList ++ t) k)) ↔
      P 0 g ∧ ∀ k, k < textGroups t.length → P (k + 1) (groupAt t k) := by
  rw [textGroups_append]
  constructor
  · intro h
    exact ⟨h 0 (Nat.succ_pos _), fun k hk => groupAt_append_succ g t k ▸ h (k + 1) (by omega)⟩
  · rintro ⟨h0, hs⟩ (_ | k) hk
    · exact h0
    · exact groupAt_append_succ g t k ▸ hs k (by omega)

theorem decText_append : decText (g.toList ++ t) = (decGroup g).getD [] ++ decText t := by
  rw [decText, textGroups_append, List.range_succ_eq_map, List.flatMap_cons, List.flatMap_map]
  simp only [groupAt_append_zero, groupAt_append_succ]
  rfl

end Front

theorem encText_append (b0 b1 b2 : Byte) (b : List Byte) :
    encText (b0 :: b1 :: b2 :: b) = (encGroup 3 b0 b1 b2).toList ++ encText b := by
  have hgroups : binGroups (b0 :: b1 :: b2 :: b).length = binGroups b.length + 1 := by
    simp only [binGroups, List.length_cons]
    omega
  have hfirst : groupBytes (b0 :: b1 :: b2 :: b).length 0 = 3 := by
    simp only [groupBytes, List.length_cons]
    omega
  have hlater (k : Nat) : groupBytes (b0 :: b1 :: b2 :: b).length (k + 1) = groupBytes b.length k := by
    simp only [groupBytes, List.length_cons]
    omega
  rw [encText, hgroups, List.range_succ_eq_map, List.flatMap_cons, List.flatMap_map, hfirst]
  simp only [hlater, Nat.mul_succ, Nat.add_right_comm _ 3]
  rfl

theorem encText_one (b0 : Byte) : encText [b0] = (encGroup 1 b0 0 0).toList := by
  simp [encText, binGroups, groupBytes]

theorem encText_two (b0 b1 : Byte) : encText [b0, b1] = (encGroup 2 b0 b1 0).toList := by
  simp [encText, binGroups, groupBytes]

theorem decText_nil : decText [] = [] := rfl

theorem decText_toList (g : TextGroup) : decText g.toList = (decGroup g).getD [] := by
  have h := decText_append g []
  rwa [decText_nil, List.append_nil, List.append_nil] at h

/-- Induction over a byte list, one group of three bytes at a time. -/
theorem bytes_induction {P : List Byte → Prop} (nil : P []) (one : ∀ b0, P [b0]) (two : ∀ b0 b1, P [b0, b1])
    (three : ∀ b0 b1 b2 b, P b → P (b0 :: b1 :: b2 :: b)) : ∀ b, P b
  | [] => nil
  | [b0] => one b0
  | [b0, b1] => two b0 b1
  | b0 :: b1 :: b2 :: b => three b0 b1 b2 b (bytes_induction nil one two three b)

/-! ### Valid strings -/

section NoOffence
variable (last : Bool) (g : TextGroup)

theorem not_illegalAt_zero : ¬ illegalAt last g 0 ↔ isData g.c0 = true := by
  simp only [illegalAt, TextGroup.get, isData]
  cases charClass g.c0 <;> simp

theorem not_illegalAt_one : ¬ illegalAt last g 1 ↔ isData g.c1 = true := by
  simp only [illegalAt, TextGroup.get, isData]
  cases charClass g.c1 <;> simp

theorem not_illegalAt_two :
    ¬ illegalAt last g 2 ↔ isData g.c2 = true ∨ (isPad g.c2 = true ∧ last = true ∧ isPad g.c3 = true) := by
  simp only [illegalAt, TextGroup.get, isData, isPad]
  cases charClass g.c2 <;> simp

theorem not_illegalAt_three :
    ¬ illegalAt last g 3 ↔ isData g.c3 = true ∨ (isPad g.c3 = true ∧ last = true) := by
  simp only [illegalAt, TextGroup.get, isData, isPad]
  cases charClass g.c3 <;> simp

end NoOffence

theorem isPad_eq_false_of_isData {c : Byte} (h : isData c = true) : isPad c = false := by
  obtain ⟨v, rfl⟩ := isData_iff_alphabet.1 h
  exact isPad_alphabet v

/-- A group has no offender exactly when it has a shape, PAD1 and PAD2 in the last place only. -/
theorem chkGroup_eq_none_iff_shape {last : Bool} {g : TextGroup} :
    chkGroup last g = none ↔ g.full = true ∨ (last = true ∧ (g.pad1 = true ∨ g.pad2 = true)) := by
  have hsplit : (∀ j, j < 4 → ¬ illegalAt last g j) ↔
      ¬ illegalAt last g 0 ∧ ¬ illegalAt last g 1 ∧ ¬ illegalAt last g 2 ∧ ¬ illegalAt last g 3 := by
    simp only [Nat.forall_lt_succ_right, Nat.not_lt_zero, false_implies, implies_true, true_and, and_assoc]
  rw [chkGroup_eq_none_iff, hsplit, not_illegalAt_zero, not_illegalAt_one, not_illegalAt_two, not_illegalAt_three]
  simp only [TextGroup.full, TextGroup.pad1, TextGroup.pad2, Bool.and_eq_true]
  constructor
  · rintro ⟨h0, h1, h2 | ⟨h2, hl, h3p⟩, h3 | ⟨h3, hl⟩⟩
    · exact .inl ⟨⟨⟨h0, h1⟩, h2⟩, h3⟩
    · exact .inr ⟨hl, .inl ⟨⟨⟨h0, h1⟩, h2⟩, h3⟩⟩
    · exact absurd h3p (ne_true_of_eq_false (isPad_eq_false_of_isData h3))
    · exact .inr ⟨hl, .inr ⟨⟨⟨h0, h1⟩, h2⟩, h3⟩⟩
  · rintro (⟨⟨⟨h0, h1⟩, h2⟩, h3⟩ | ⟨hl, ⟨⟨⟨h0, h1⟩, h2⟩, h3⟩ | ⟨⟨⟨h0, h1⟩, h2⟩, h3⟩⟩)
    · exact ⟨h0, h1, .inl h2, .inl h3⟩
    · exact ⟨h0, h1, .inl h2, .inr ⟨h3, hl⟩⟩
    · exact ⟨h0, h1, .inr ⟨h2, hl, h3⟩, .inr ⟨h3, hl⟩⟩

theorem validText_iff {t : List Byte} :
    validText t = true ↔ t.length % 4 = 0 ∧
      ∀ k, k < textGroups t.length → chkGroup (isLastGroup t.length k) (groupAt t k) = none := by
  simp only [validText, Bool.and_eq_true, decide_eq_true_eq, List.all_eq_true, List.mem_range,
    Option.isNone_iff_eq_none]

theorem isLastGroup_iff {n k : Nat} : isLastGroup n k = true ↔ k + 1 = textGroups n := decide_eq_true_iff

theorem validText_nil : validText [] = true := rfl

/-- A valid string behind a first group without offender. -/
theorem validText_append_iff {g : TextGroup} {t : List Byte} :
    validText (g.toList ++ t) = true ↔ chkGroup (decide (t = [])) g = none ∧ validText t = true := by
  have hlen : (g.toList ++ t).length % 4 = t.length % 4 := by
    rw [List.length_append, length_toList]
    omega
  have hlast (k : Nat) : isLastGroup (g.toList ++ t).length (k + 1) = isLastGroup t.length k := by
    simp only [isLastGroup, textGroups_append, Nat.add_right_cancel_iff]
  have hfirst (h0 : t.length % 4 = 0) : isLastGroup (g.toList ++ t).length 0 = decide (t = []) := by
    rw [isLastGroup, textGroups_append, decide_eq_decide, ← List.length_eq_zero_iff, textGroups]
    omega
  simp only [validText_iff]
  rw [forall_groups_append (P := fun k g' => chkGroup (isLastGroup (g.toList ++ t).length k) g' = none), hlen]
  simp only [hlast]
  constructor
  · rintro ⟨h0, hg, ht⟩
    exact ⟨hfirst h0 ▸ hg, h0, ht⟩
  · rintro ⟨hg, h0, ht⟩
    exact ⟨h0, hfirst h0 ▸ hg, ht⟩

theorem validText_pad1Group (v0 v1 v2 : Sextet) : validText (pad1Group v0 v1 v2).toList = true := by
  rw [← List.append_nil (pad1Group v0 v1 v2).toList, validText_append_iff, chkGroup_eq_none_iff_shape]
  exact ⟨.inr ⟨rfl, .inl (pad1_iff.2 ⟨v0, v1, v2, rfl⟩)⟩, validText_nil⟩

theorem validText_pad2Group (v0 v1 : Sextet) : validText (pad2Group v0 v1).toList = true := by
  rw [← List.append_nil (pad2Group v0 v1).toList, validText_append_iff, chkGroup_eq_none_iff_shape]
  exact ⟨.inr ⟨rfl, .inr (pad2_iff.2 ⟨v0, v1, rfl⟩)⟩, validText_nil⟩

theorem validText_fullGroup_append {v0 v1 v2 v3 : Sextet} {t : List Byte} :
    validText ((fullGroup v0 v1 v2 v3).toList ++ t) = true ↔ validText t = true := by
  rw [validText_append_iff, and_iff_right]
  exact chkGroup_eq_none_iff_shape.2 (.inl (full_iff.2 ⟨v0, v1, v2, v3, rfl⟩))

/-- Induction over the valid strings: the empty one, one padded group, a full group in front of a valid string. -/
theorem validText_induction {P : (t : List Byte) → validText t = true → Prop} (nil : P [] validText_nil)
    (pad1 : ∀ v0 v1 v2, P (pad1Group v0 v1 v2).toList (validText_pad1Group v0 v1 v2))
    (pad2 : ∀ v0 v1, P (pad2Group v0 v1).toList (validText_pad2Group v0 v1))
    (full : ∀ v0 v1 v2 v3 t (h : validText t = true), P t h →
      P ((fullGroup v0 v1 v2 v3).toList ++ t) (validText_fullGroup_append.2 h)) :
    ∀ t h, P t h
  | [], _ => nil
  | [_], h => absurd (validText_iff.1 h).1 (by simp)
  | [_, _], h => absurd (validText_iff.1 h).1 (by simp)
  | [_, _, _], h => absurd (validText_iff.1 h).1 (by simp)
  | c0 :: c1 :: c2 :: c3 :: t, h => by
    obtain ⟨hg, ht⟩ := validText_append_iff (g := ⟨c0, c1, c2, c3⟩) (t := t).1 h
    rw [chkGroup_eq_none_iff_shape, full_iff, pad1_iff, pad2_iff, decide_eq_true_eq] at hg
    obtain ⟨v0, v1, v2, v3, hg⟩ | ⟨rfl, ⟨v0, v1, v2, hg⟩ | ⟨v0, v1, hg⟩⟩ := hg
    all_goals cases hg
    · exact full v0 v1 v2 v3 t ht (validText_induction nil pad1 pad2 full t ht)
    · exact pad1 v0 v1 v2
    · exact pad2 v0 v1

/-! ### Trailing pads -/

/-- The pads after the last data character are all that counts. -/
theorem trailingPads_append_alphabet (l : List Byte) (v : Sextet) (t : List Byte) :
    trailingPads (l ++ alphabet v :: t) = trailingPads t := by
  simp only [trailingPads, List.reverse_append, List.reverse_cons, List.append_assoc, List.takeWhile_append]
  split
  case isTrue h => simp [h]
  case isFalse => rfl

theorem trailingPads_fullGroup_append (v0 v1 v2 v3 : Sextet) (t : List Byte) :
    trailingPads ((fullGroup v0 v1 v2 v3).toList ++ t) = trailingPads t :=
  trailingPads_append_alphabet [alphabet v0, alphabet v1, alphabet v2] v3 t

theorem trailingPads_pad1Group (v0 v1 v2 : Sextet) : trailingPads (pad1Group v0 v1 v2).toList = 1 :=
  trailingPads_append_alphabet [alphabet v0, alphabet v1] v2 [padChar]

theorem trailingPads_pad2Group (v0 v1 : Sextet) : trailingPads (pad2Group v0 v1).toList = 2 :=
  trailingPads_append_alphabet [alphabet v0] v1 [padChar, padChar]

theorem trailingPads_le_length (t : List Byte) : trailingPads t ≤ t.length := by
  simpa only [trailingPads, List.length_reverse] using (List.takeWhile_sublist isPad (l := t.reverse)).length_le

/-- A valid string: at most two pads end it, and Dec gives three bytes for each group but for the pads. -/
theorem decText_length_add_trailingPads {t : List Byte} (h : validText t = true) :
    (decText t).length + trailingPads t = t.length / 4 * 3 ∧ trailingPads t ≤ 2 := by
  induction t, h using validText_induction with
  | nil => exact ⟨rfl, Nat.zero_le 2⟩
  | pad1 v0 v1 v2 => simp [decText_toList, decGroup_pad1Group, trailingPads_pad1Group]
  | pad2 v0 v1 => simp [decText_toList, decGroup_pad2Group, trailingPads_pad2Group]
  | full v0 v1 v2 v3 t _ ih =>
    obtain ⟨hlen, hpads⟩ := ih
    rw [decText_append, decGroup_fullGroup, trailingPads_fullGroup_append]
    simp only [Option.getD_some, List.length_append, List.length_cons, List.length_nil, length_toList]
    omega

theorem exists_of_mem_map_alphabet {l : List Sextet} {c : Byte} (h : c ∈ l.map alphabet) : ∃ v, c = alphabet v := by
  obtain ⟨v, -, hv⟩ := List.mem_map.1 h
  exact ⟨v, hv.symm⟩

/-- Before its trailing pads a valid string has data characters only. -/
theorem mem_alphabet_of_mem_take {t : List Byte} (h : validText t = true) {c : Byte}
    (hc : c ∈ t.take (t.length - trailingPads t)) : ∃ v, c = alphabet v := by
  induction t, h using validText_induction with
  | nil => simp at hc
  | pad1 v0 v1 v2 =>
    rw [trailingPads_pad1Group] at hc
    exact exists_of_mem_map_alphabet (l := [v0, v1, v2]) hc
  | pad2 v0 v1 =>
    rw [trailingPads_pad2Group] at hc
    exact exists_of_mem_map_alphabet (l := [v0, v1]) hc
  | full v0 v1 v2 v3 t _ ih =>
    have hle := trailingPads_le_length t
    rw [trailingPads_fullGroup_append, List.length_append, Nat.add_sub_assoc hle, List.take_length_add_append,
      List.mem_append] at hc
    obtain hc | hc := hc
    · exact exists_of_mem_map_alphabet (l := [v0, v1, v2, v3]) hc
    · exact ih hc

/-! ### Enc, and the round trips -/

theorem encText_length (b : List Byte) : (encText b).length = encSize b.length := by
  simp [encText, encSize, binGroups, List.length_flatMap]

theorem validText_encText (b : List Byte) : validText (encText b) = true := by
  induction b using bytes_induction with
  | nil => exact validText_nil
  | one b0 => exact encText_one b0 ▸ encGroup_one b0 0 0 ▸ validText_pad2Group _ _
  | two b0 b1 => exact encText_two b0 b1 ▸ encGroup_two b0 b1 0 ▸ validText_pad1Group _ _ _
  | three b0 b1 b2 b ih => exact encText_append b0 b1 b2 b ▸ encGroup_three b0 b1 b2 ▸ validText_fullGroup_append.2 ih

theorem decText_encText (b : List Byte) : decText (encText b) = b := by
  induction b using bytes_induction with
  | nil => rfl
  | one b0 => rw [encText_one, decText_toList, decGroup_encGroup_one, Option.getD_some]
  | two b0 b1 => rw [encText_two, decText_toList, decGroup_encGroup_two, Option.getD_some]
  | three b0 b1 b2 b ih =>
    rw [encText_append, decText_append, decGroup_encGroup_three, ih]
    rfl

theorem trailingPads_encText (b : List Byte) : b.length + trailingPads (encText b) = (b.length + 2) / 3 * 3 := by
  have h := (decText_length_add_trailingPads (validText_encText b)).1
  rw [decText_encText, encText_length, encSize] at h
  omega

/-! ### Encoding what was decoded -/

theorem toList_injective : Function.Injective TextGroup.toList := by
  rintro ⟨c0, c1, c2, c3⟩ ⟨d0, d1, d2, d3⟩ h
  simpa [TextGroup.toList] using h

theorem extractLsb'_eq_zero_iff {v : Sextet} (n : Nat) : v.extractLsb' 0 n = 0 ↔ v.toNat % 2 ^ n = 0 := by
  simp [← BitVec.toNat_inj]

theorem encText_decText_fullGroup_append (v0 v1 v2 v3 : Sextet) (t : List Byte) :
    encText (decText ((fullGroup v0 v1 v2 v3).toList ++ t)) =
      (fullGroup v0 v1 v2 v3).toList ++ encText (decText t) := by
  obtain ⟨h0, h1, h2, h3⟩ := sextetOf_wordOfSextets v0 v1 v2 v3
  rw [decText_append, decGroup_fullGroup, Option.getD_some, List.cons_append, List.cons_append, List.cons_append,
    List.nil_append, encText_append, encGroup_three, wordOfBytes_byteOf, h0, h1, h2, h3]

theorem toNat_byte_zero : (0 : Byte).toNat = 0 := rfl

theorem toNat_sextet_zero : (0 : Sextet).toNat = 0 := rfl

/-- Two bytes of a word, the third 0: its low eight bits are cleared. -/
theorem wordOfBytes_byteOf_two (w : GroupWord) :
    (wordOfBytes (byteOf w 0) (byteOf w 1) 0).toNat = w.toNat / 256 * 256 := by
  simp only [wordOfBytes_toNat, byteOf_toNat, toNat_byte_zero]
  omega

/-- One byte of a word, the others 0: its low sixteen bits are cleared. -/
theorem wordOfBytes_byteOf_one (w : GroupWord) :
    (wordOfBytes (byteOf w 0) 0 0).toNat = w.toNat / 65536 * 65536 := by
  simp only [wordOfBytes_toNat, byteOf_toNat, toNat_byte_zero]
  omega

/-- A PAD1 group comes back with the low two bits of its last data character cleared. -/
theorem encText_decText_pad1Group (v0 v1 v2 : Sextet) :
    ∃ v : Sextet, v.toNat = v2.toNat / 4 * 4 ∧
      encText (decText (pad1Group v0 v1 v2).toList) = (pad1Group v0 v1 v).toList := by
  have hw := wordOfBytes_byteOf_two (wordOfSextets v0 v1 v2 0)
  rw [wordOfSextets_toNat, toNat_sextet_zero] at hw
  rw [decText_toList, decGroup_pad1Group, Option.getD_some, encText_two, encGroup_two]
  generalize wordOfBytes _ _ _ = w at hw
  have h0 : sextetOf w 0 = v0 := BitVec.eq_of_toNat_eq (by rw [sextetOf_toNat]; omega)
  have h1 : sextetOf w 1 = v1 := BitVec.eq_of_toNat_eq (by rw [sextetOf_toNat]; omega)
  refine ⟨sextetOf w 2, ?_, by rw [h0, h1]⟩
  rw [sextetOf_toNat]
  omega

/-- A PAD2 group comes back with the low four bits of its last data character cleared. -/
theorem encText_decText_pad2Group (v0 v1 : Sextet) :
    ∃ v : Sextet, v.toNat = v1.toNat / 16 * 16 ∧
      encText (decText (pad2Group v0 v1).toList) = (pad2Group v0 v).toList := by
  have hw := wordOfBytes_byteOf_one (wordOfSextets v0 v1 0 0)
  rw [wordOfSextets_toNat, toNat_sextet_zero] at hw
  rw [decText_toList, decGroup_pad2Group, Option.getD_some, encText_one, encGroup_one]
  generalize wordOfBytes _ _ _ = w at hw
  have h0 : sextetOf w 0 = v0 := BitVec.eq_of_toNat_eq (by rw [sextetOf_toNat]; omega)
  refine ⟨sextetOf w 1, ?_, by rw [h0]⟩
  rw [sextetOf_toNat]
  omega

theorem discardsZero_fullGroup (v0 v1 v2 v3 : Sextet) : discardsZero (fullGroup v0 v1 v2 v3) = true := by
  simp [discardsZero, fullGroup]

theorem discardsZero_pad1Group_iff (v0 v1 v2 : Sextet) :
    discardsZero (pad1Group v0 v1 v2) = true ↔ v2.toNat % 4 = 0 := by
  simp only [discardsZero, pad1Group, charClass_alphabet, charClass_padChar, decide_eq_true_eq]
  exact extractLsb'_eq_zero_iff 2

theorem discardsZero_pad2Group_iff (v0 v1 : Sextet) : discardsZero (pad2Group v0 v1) = true ↔ v1.toNat % 16 = 0 := by
  simp only [discardsZero, pad2Group, charClass_alphabet, charClass_padChar, decide_eq_true_eq]
  exact extractLsb'_eq_zero_iff 4

theorem encText_decText_pad1Group_iff (v0 v1 v2 : Sextet) :
    encText (decText (pad1Group v0 v1 v2).toList) = (pad1Group v0 v1 v2).toList ↔
      discardsZero (pad1Group v0 v1 v2) = true := by
  obtain ⟨v, hv, henc⟩ := encText_decText_pad1Group v0 v1 v2
  have hinj : (pad1Group v0 v1 v).toList = (pad1Group v0 v1 v2).toList ↔ v = v2 := by
    rw [toList_injective.eq_iff]
    simp [pad1Group, alphabet_injective.eq_iff]
  rw [henc, hinj, discardsZero_pad1Group_iff, ← BitVec.toNat_inj]
  omega

theorem encText_decText_pad2Group_iff (v0 v1 : Sextet) :
    encText (decText (pad2Group v0 v1).toList) = (pad2Group v0 v1).toList ↔
      discardsZero (pad2Group v0 v1) = true := by
  obtain ⟨v, hv, henc⟩ := encText_decText_pad2Group v0 v1
  have hinj : (pad2Group v0 v).toList = (pad2Group v0 v1).toList ↔ v = v1 := by
    rw [toList_injective.eq_iff]
    simp [pad2Group, alphabet_injective.eq_iff]
  rw [henc, hinj, discardsZero_pad2Group_iff, ← BitVec.toNat_inj]
  omega

/-- In a string of one group every group is that one. -/
theorem forall_groups_toList {P : TextGroup → Prop} (g : TextGroup) :
    (∀ k, k < textGroups g.toList.length → P (groupAt g.toList k)) ↔ P g := by
  have h := forall_groups_append g [] (P := fun _ => P)
  rw [List.append_nil] at h
  exact h.trans (and_iff_left fun k hk => absurd hk (Nat.not_lt_zero k))

/-! ### The obligations -/

/-- Settles O14, by induction over the groups of three bytes. -/
theorem decodeInvertsEncodeText : Obligations.DecodeInvertsEncodeText := decText_encText

/-- Settles O17, by induction over the valid strings: a full group discards nothing, a padded one comes back with the
discarded bits cleared. -/
theorem encodeInvertsDecodeText : Obligations.EncodeInvertsDecodeText := by
  intro t h
  induction t, h using validText_induction with
  | nil => exact iff_of_true rfl fun k hk => absurd hk (Nat.not_lt_zero k)
  | pad1 v0 v1 v2 => rw [forall_groups_toList (P := (discardsZero · = true)), encText_decText_pad1Group_iff]
  | pad2 v0 v1 => rw [forall_groups_toList (P := (discardsZero · = true)), encText_decText_pad2Group_iff]
  | full v0 v1 v2 v3 t _ ih =>
    rw [encText_decText_fullGroup_append, List.append_cancel_left_eq, ih,
      forall_groups_append (P := fun _ g => discardsZero g = true), and_iff_right (discardsZero_fullGroup v0 v1 v2 v3)]

/-- Settles O11: each group has four characters. -/
theorem encodedTextLength : Obligations.EncodedTextLength := by
  intro b
  rw [encText_length, encSize]
  exact ⟨rfl, Nat.mul_mod_left _ 4⟩

/-- Settles O12: the pads make up for the bytes the last group does not have, and an encoded text is valid, so that data
characters only stand before them. -/
theorem encodedTextPadding : Obligations.EncodedTextPadding := by
  intro b
  have hpads := trailingPads_encText b
  refine ⟨?_, ?_, ?_, fun c hc => mem_alphabet_of_mem_take (validText_encText b) hc⟩
  all_goals omega

/-- Settles O13, by induction over the groups of three bytes. -/
theorem encodedTextIsValid : Obligations.EncodedTextIsValid := validText_encText

/-- Settles O15, group by group. -/
theorem validTextIsGrammar : Obligations.ValidTextIsGrammar := by
  intro t
  simp only [validText_iff, grammarText, chkGroup_eq_none_iff_shape, isLastGroup_iff]

/-- Settles O16. -/
theorem decodedTextLength : Obligations.DecodedTextLength := by
  intro t h
  obtain ⟨hlen, htwo⟩ := decText_length_add_trailingPads h
  rw [decSize]
  omega

/-- Settles O18: the size agreement of a decoded text, for the text the encoder produces. -/
theorem sizesAgree : Obligations.SizesAgree := by
  intro b
  obtain ⟨-, hle, hsize⟩ := decodedTextLength (encText b) (validText_encText b)
  rw [decText_encText] at hsize
  exact ⟨hle, hsize.symm⟩

end Sys2Proof.Machine
end

