-- ==== Sys2Proof/Proofs/EngineSteps.lean ====
section
/-! PROOFS. One engine step of each operation (40_encoder.md, 41_decoder.md): which branch it takes, what it answers
there, and the obligations about where it completes, where it reports and where it stops. -/

namespace Sys2Proof.Machine

/-! ### Groups and their characters -/

theorem toList_getD (g : TextGroup) {j : Nat} (hj : j < 4) : g.toList.getD j 0 = g.get j := by
  interval_cases j <;> rfl

theorem sourceGroup_get (s : State) (i : Nat) {j : Nat} (hj : j < 4) :
    (sourceGroup s i).get j = sourceByte s (i + j) := by
  interval_cases j <;> rfl

/-- A full group has no pad in it. -/
theorem isPad_eq_false_of_full {g : TextGroup} (h : g.full = true) : isPad g.c2 = false ∧ isPad g.c3 = false := by
  obtain ⟨v0, v1, v2, v3, rfl⟩ := full_iff.1 h
  exact ⟨isPad_alphabet v2, isPad_alphabet v3⟩

/-- The report of the first character that offends. -/
theorem chkGroup_eq_some_of_first {last : Bool} {g : TextGroup} {j : Nat} (hj : j < 4) (hill : illegalAt last g j)
    (hbefore : ∀ i, i < j → ¬ illegalAt last g i) :
    chkGroup last g = some ⟨if charClass (g.get j) = .bad then .char else .pad, j, g.get j⟩ := by
  rw [chkGroup_eq_some_iff, offenderAt_eq_some_iff]
  refine ⟨hj, ⟨rfl, hill, ?_⟩, hbefore⟩
  obtain hbad | ⟨hpad, -⟩ := hill
  · exact .inl ⟨hbad, if_pos hbad, rfl⟩
  · exact .inr ⟨hpad, if_neg (hpad ▸ nofun), eq_padChar_of_charClass_eq_pad hpad⟩

/-! ### The branches of the operations -/

section Encoder
variable {s : State}

theorem execEncsz_of_fits (h : encSize s.len.toNat < 2 ^ s.xw) :
    execEncsz s = .next (finish { s with result := BitVec.ofNat s.xw (encSize s.len.toNat) }) :=
  if_neg (Nat.not_le.2 h)

theorem execEnc_of_overflow (h : 2 ^ s.xw ≤ 4 * binGroups s.len.toNat) : execEnc s = .fault .sizeOverflow :=
  if_pos h

theorem execEnc_at_end (h : 4 * binGroups s.len.toNat < 2 ^ s.xw) (hk : s.k.toNat = binGroups s.len.toNat) :
    execEnc s = .next (finish s) := by
  rw [execEnc, if_neg (Nat.not_le.2 h), if_pos hk]

theorem execEnc_at_group (h : 4 * binGroups s.len.toNat < 2 ^ s.xw) (hk : s.k.toNat ≠ binGroups s.len.toNat) :
    execEnc s = encGroupStep s := by
  rw [execEnc, if_neg (Nat.not_le.2 h), if_neg hk]

theorem encGroupStep_of_read_fault {r : Fault} (h : readSrc s (3 * s.k.toNat) = .error r) :
    encGroupStep s = .fault r := by
  simp only [encGroupStep, gatherBytes, h]

/-- The first write of the group decides when it faults. -/
theorem encGroupStep_of_write_fault {r : Fault} (hm : 1 ≤ groupBytes s.len.toNat s.k.toNat)
    (hs : ∀ j, j < groupBytes s.len.toNat s.k.toNat → SrcOk s (3 * s.k.toNat + j))
    (h : accessFault s s.dst (encElement s) = some r) : encGroupStep s = .fault r := by
  simp only [encGroupStep, gatherBytes_ok hm hs, TextGroup.toList, writeDstRun, writeDst, h]

end Encoder

section Decoder
variable {s : State}

theorem execDecsz_of_bad_length (h : s.len.toNat % 4 ≠ 0) :
    execDecsz s = .next (raiseFormatError s (lengthOffender s.len.toNat)) :=
  if_pos h

theorem execDecsz_of_empty (h : s.len.toNat = 0) : execDecsz s = .next (finish { s with result := 0 }) := by
  simp [execDecsz, h]

theorem execDecsz_of_last_group (h : s.len.toNat % 4 = 0) (h0 : s.len.toNat ≠ 0)
    (hs : ∀ j, j < 4 → SrcOk s (s.len.toNat - 4 + j)) :
    execDecsz s =
      if 3 ≤ trailPad (sourceGroup s (s.len.toNat - 4)) then
        .next (raiseFormatError s ⟨.pad, s.len.toNat - trailPad (sourceGroup s (s.len.toNat - 4)), padChar⟩)
      else .next (finish { s with
        result := BitVec.ofNat s.xw (decSize s.len.toNat (trailPad (sourceGroup s (s.len.toNat - 4)))) }) := by
  simp only [execDecsz, h, h0, gatherChars_ok hs, ne_eq, not_true_eq_false, if_false]

theorem execVal_of_bad_length (h : s.len.toNat % 4 ≠ 0) :
    execVal s = .next (raiseFormatError s (lengthOffender s.len.toNat)) :=
  if_pos h

theorem execVal_at_end (h : s.len.toNat % 4 = 0) (hk : s.k.toNat = textGroups s.len.toNat) :
    execVal s = .next (finish s) := by
  simp only [execVal, h, hk, ne_eq, not_true_eq_false, if_false, if_true]

theorem execVal_of_legal_group (h : s.len.toNat % 4 = 0) (hk : s.k.toNat ≠ textGroups s.len.toNat)
    (hs : ∀ j, j < 4 → SrcOk s (4 * s.k.toNat + j))
    (hg : chkGroup (isLastGroup s.len.toNat s.k.toNat) (sourceGroup s (4 * s.k.toNat)) = none) :
    execVal s = .next { s with k := BitVec.ofNat s.xw (s.k.toNat + 1) } := by
  simp only [execVal, h, hk, gatherChars_ok hs, hg, ne_eq, not_true_eq_false, if_false]

theorem execVal_of_offender (h : s.len.toNat % 4 = 0) (hk : s.k.toNat ≠ textGroups s.len.toNat)
    (hs : ∀ j, j < 4 → SrcOk s (4 * s.k.toNat + j)) {o : Offender}
    (hg : chkGroup (isLastGroup s.len.toNat s.k.toNat) (sourceGroup s (4 * s.k.toNat)) = some o) :
    execVal s = .next (raiseFormatError s { o with pos := 4 * s.k.toNat + o.pos }) := by
  simp only [execVal, h, hk, gatherChars_ok hs, hg, ne_eq, not_true_eq_false, if_false]

theorem execDec_of_bad_length (h : s.len.toNat % 4 ≠ 0) : execDec s = .fault .malformed :=
  if_pos h

theorem execDec_at_end (h : s.len.toNat % 4 = 0) (hk : s.k.toNat = textGroups s.len.toNat) :
    execDec s = .next (finish s) := by
  rw [execDec, if_neg (not_not.2 h), if_pos hk]

theorem execDec_at_group (h : s.len.toNat % 4 = 0) (hk : s.k.toNat ≠ textGroups s.len.toNat) :
    execDec s = decGroupStep s := by
  rw [execDec, if_neg (not_not.2 h), if_neg hk]

/-- A group with an offender has no shape, or a padded one before the last place: DEC stops on both. -/
theorem decGroupStep_of_offender (hs : ∀ j, j < 4 → SrcOk s (4 * s.k.toNat + j))
    (hg : chkGroup (isLastGroup s.len.toNat s.k.toNat) (sourceGroup s (4 * s.k.toNat)) ≠ none) :
    decGroupStep s = .fault .malformed := by
  rw [Ne, chkGroup_eq_none_iff_shape, not_or, not_and'] at hg
  obtain ⟨hfull, hlast⟩ := hg
  simp only [decGroupStep, gatherChars_ok hs]
  by_cases hpad : (sourceGroup s (4 * s.k.toNat)).pad1 = true ∨ (sourceGroup s (4 * s.k.toNat)).pad2 = true
  case neg => rw [decGroup_eq_none_of_no_shape (not_or.2 ⟨hfull, hpad⟩)]
  case pos =>
    have hc3 : isPad (sourceGroup s (4 * s.k.toNat)).c3 = true := by
      rw [pad1_iff, pad2_iff] at hpad
      obtain ⟨v0, v1, v2, hg⟩ | ⟨v0, v1, hg⟩ := hpad
      all_goals exact hg ▸ isPad_padChar
    have hnotLast : isLastGroup s.len.toNat s.k.toNat = false := eq_false_of_ne_true (hlast hpad)
    simp only [hc3, hnotLast, Bool.not_false, Bool.or_true, Bool.and_true, if_true]
    split <;> rfl

end Decoder

/-! ### Accesses that fault (20_memory.md section 2) -/

section Access
variable {s : State} {base : Word s.xw} {i : Nat}

theorem accessFault_of_beyond (h : 2 ^ s.xw ≤ base.toNat + i) : accessFault s base i = some .addrRange :=
  if_pos h

theorem accessFault_of_null (h : base.toNat + i < 2 ^ s.xw) (h0 : base.toNat = 0) :
    accessFault s base i = some .nullBase := by
  rw [accessFault, if_neg (Nat.not_le.2 h), if_pos (show base.toNat = Config.nullAddr from h0)]

theorem accessFault_of_unowned (h : base.toNat + i < 2 ^ s.xw) (h0 : base.toNat ≠ 0)
    (ho : ownedAddr s.owned (base.toNat + i) = false) : accessFault s base i = some .outOfBounds := by
  rw [accessFault, if_neg (Nat.not_le.2 h), if_neg (show ¬ base.toNat = Config.nullAddr from h0), ho]
  rfl

theorem readSrc_of_fault {r : Fault} (h : accessFault s s.src i = some r) : readSrc s i = .error r := by
  simp only [readSrc, h]

theorem writeDst_of_fault {r : Fault} {m : Memory} {b : Byte} (h : accessFault s s.dst i = some r) :
    writeDst s m i b = .error r := by
  simp only [writeDst, h]

end Access

theorem engineSees_of_race {s : State} {a n : Nat} (h : raceAt s a = some n) : engineSees s a = Config.racedRead n := by
  simp only [engineSees, h]

theorem landed_of_race {s : State} {a n : Nat} (h : raceAt s a = some n) (b : Byte) :
    landed s a b = Config.racedByte n := by
  simp only [landed, h]

/-! ### What the writes of a group leave alone -/

theorem read_writeBytes_of_ne {m : Memory} (hwf : m.wf = true) {a x : Nat} {bs : List Byte}
    (h : ∀ j, j < bs.length → x ≠ a + j) : (writeBytes m a bs).read x = m.read x := by
  rw [read_writeBytes _ _ _ hwf, if_neg]
  rintro ⟨hle, hlt⟩
  exact h (x - a) (by omega) (by omega)

theorem read_engineStores_of_ne {s : State} {a : Nat} {bs : List Byte} {x : Nat} (hwf : s.mem.wf = true)
    (h : ∀ j, j < bs.length → x ≠ a + j) : (engineStores s a bs).read x = s.mem.read x :=
  read_writeBytes_of_ne hwf fun j hj => h j (by rwa [landedBytes_length] at hj)

/-! ### The obligations: where each operation completes -/

/-- Settles O19. -/
theorem encszCompletes : Obligations.EncszCompletes := fun _ h => execEncsz_of_fits h

/-- Settles O21: the group step writes the four characters of `encGroupOf s` at `DST + 4*K`. -/
theorem encGroupStepCompletes : Obligations.EncGroupStepCompletes := by
  intro s hwf hfit hk hsrc hdst
  have hm : 1 ≤ groupBytes s.len.toNat s.k.toNat := by
    rw [groupBytes]
    omega
  refine ⟨engineStores s (s.dst.toNat + encElement s) (encGroupOf s).toList,
    (execEnc_at_group hfit (Nat.ne_of_lt hk)).trans (encGroupStep_ok hm hsrc hdst), fun j hj => ?stored,
    fun a ha => read_engineStores_of_ne hwf fun j hj => ?other⟩
  case stored =>
    rw [read_engineStores _ _ _ hwf, if_pos (by simp only [encElement, length_toList]; omega), encElement,
      show s.dst.toNat + (4 * s.k.toNat + j) - (s.dst.toNat + 4 * s.k.toNat) = j by omega, toList_getD _ hj]
    rfl
  case other =>
    rw [encElement, Nat.add_assoc]
    exact ha j hj

/-- Settles O22: at the end of its groups each operation finishes. -/
theorem finishingStepCompletes : Obligations.FinishingStepCompletes := fun _ =>
  ⟨execEnc_at_end, fun h4 hk => ⟨execVal_at_end h4 hk, execDec_at_end h4 hk⟩⟩

/-- Settles O23. -/
theorem decszCompletes : Obligations.DecszCompletes := by
  refine ⟨fun s h => execDecsz_of_empty h, fun s h4 h0 hsrc hpads => ?_⟩
  exact (execDecsz_of_last_group h4 h0 hsrc).trans (if_neg (by omega))

/-- Settles O24: without an offender the check answers none. -/
theorem valGroupStepCompletes : Obligations.ValGroupStepCompletes := fun _ h4 hk hsrc hlegal =>
  execVal_of_legal_group h4 hk hsrc ((chkGroup_eq_none_iff _ _).2 hlegal)

/-- Settles O25: the group step writes the bytes of the group at `DST + RESULT`. -/
theorem decGroupStepCompletes : Obligations.DecGroupStepCompletes := by
  intro s bs hwf h4 hk hsrc hbs hplace hdst
  have hlast : isLastGroup s.len.toNat s.k.toNat = true ∨
      (isPad (sourceGroup s (4 * s.k.toNat)).c2 = false ∧ isPad (sourceGroup s (4 * s.k.toNat)).c3 = false) :=
    hplace.imp isLastGroup_iff.2 isPad_eq_false_of_full
  refine ⟨engineStores s (s.dst.toNat + decElement s) bs,
    (execDec_at_group h4 hk).trans (decGroupStep_ok hsrc hbs hlast hdst), fun j hj => ?stored,
    fun a ha => read_engineStores_of_ne hwf fun j hj => ?other⟩
  case stored =>
    rw [read_engineStores _ _ _ hwf, if_pos (by rw [decElement]; omega), decElement,
      show s.dst.toNat + (s.result.toNat + j) - (s.dst.toNat + s.result.toNat) = j by omega]
  case other =>
    rw [decElement, Nat.add_assoc]
    exact ha j hj

/-! ### The obligations: where an operation reports -/

/-- The report of a bad length, whichever operation makes it. -/
theorem raiseFormatError_length (s : State) :
    raiseFormatError s (lengthOffender s.len.toNat) =
      { s with status := ⟨.error, .format .length⟩, errpos := s.len, errchar := 0, result := 0 } := by
  simp [raiseFormatError, lengthOffender]

theorem setWidth_padChar (n : Nat) : padChar.setWidth n = BitVec.ofNat n 0x3D := by
  apply BitVec.eq_of_toNat_eq
  simp [padChar]

/-- Settles O26. -/
theorem decszReportsFormatErrors : Obligations.DecszReportsFormatErrors := by
  refine ⟨fun s h => ?length, fun s h4 h0 hsrc hpads => ?pads⟩
  case length => exact (execDecsz_of_bad_length h).trans (congrArg _ (raiseFormatError_length s))
  case pads =>
    refine (execDecsz_of_last_group h4 h0 hsrc).trans ((if_pos hpads).trans ?_)
    rw [raiseFormatError, setWidth_padChar]

/-- Settles O27: the check finds the first character that offends; its position is counted from the start. -/
theorem valReportsFormatErrors : Obligations.ValReportsFormatErrors := by
  refine ⟨fun s h => ?length, fun s j h4 hk hsrc hj hill hbefore => ?offender⟩
  case length => exact (execVal_of_bad_length h).trans (congrArg _ (raiseFormatError_length s))
  case offender =>
    have hfirst := chkGroup_eq_some_of_first hj hill hbefore
    rw [sourceGroup_get s _ hj] at hfirst
    exact execVal_of_offender h4 hk hsrc hfirst

/-! ### The obligations: where an operation stops -/

/-- Settles O29: the three tests of an access in their order, and what an access that passes them does. -/
theorem accessFaultReasons : Obligations.AccessFaultReasons := by
  intro s i m b
  refine ⟨fun h => readSrc_of_fault (accessFault_of_beyond h), fun h h0 => readSrc_of_fault (accessFault_of_null h h0),
    fun h h0 ho => readSrc_of_fault (accessFault_of_unowned h h0 ho), fun h hr => ?read, fun h n hr => ?readRaced,
    fun h => writeDst_of_fault (accessFault_of_beyond h), fun h h0 => writeDst_of_fault (accessFault_of_null h h0),
    fun h h0 ho => writeDst_of_fault (accessFault_of_unowned h h0 ho), fun h hr => ?write, fun h n hr => ?writeRaced⟩
  case read => rw [readSrc_ok h, sourceByte, engineSees_of_no_race hr]
  case readRaced => rw [readSrc_ok h, sourceByte, engineSees_of_race hr]
  case write => rw [writeDst_ok h, landed_of_no_race hr]
  case writeRaced => rw [writeDst_ok h, landed_of_race hr]

/-- Settles O30: the size check comes first, then the group's first read, then its first write. -/
theorem encStopsOnViolations : Obligations.EncStopsOnViolations := by
  refine fun s => ⟨execEnc_of_overflow, fun hfit hk => ?_⟩
  have hlen := s.len.isLt
  have hm : 1 ≤ groupBytes s.len.toNat s.k.toNat := by
    rw [groupBytes]
    omega
  have hgroup := execEnc_at_group hfit (Nat.ne_of_lt hk)
  refine ⟨fun h0 => ?nullSource, fun hsrc => ⟨fun h0 => ?nullDestination, fun h0 hlt ho => ?unowned⟩⟩
  case nullSource =>
    exact hgroup.trans (encGroupStep_of_read_fault (readSrc_of_fault (accessFault_of_null (by omega) h0)))
  case nullDestination =>
    exact hgroup.trans (encGroupStep_of_write_fault hm hsrc (accessFault_of_null (by rw [encElement]; omega) h0))
  case unowned => exact hgroup.trans (encGroupStep_of_write_fault hm hsrc (accessFault_of_unowned hlt h0 ho))

/-- Settles O31: the length is tested first; a group with an offender stops DEC. -/
theorem decStopsOnMalformed : Obligations.DecStopsOnMalformed := by
  refine ⟨fun s h => execDec_of_bad_length h, fun s h4 hk hsrc hill => ?_⟩
  obtain ⟨j, hj, hill⟩ := hill
  exact (execDec_at_group h4 hk).trans
    (decGroupStep_of_offender hsrc fun hnone => (chkGroup_eq_none_iff _ _).1 hnone j hj hill)

end Sys2Proof.Machine
end

