-- ==== Sys2Proof/Proofs/Frames.lean ====
section
/-! PROOFS. What an engine step leaves alone: the three ways it can end, its frame for each operation, what the
read-only operations depend on, and the obligations. -/

namespace Sys2Proof.Machine

/-! ### The three ends of an engine step -/

/-- How a step of operation `i` from `s` ends in `t`: the operation finishes, it reports an error, or it goes on to the
next group. -/
inductive StepEnd (i : Instr) (s : State) : State → Prop
  | finishes (r : Word s.xw) : StepEnd i s (finish { s with result := r })
  | reports (hi : i = .decsz ∨ i = .val) (o : Offender) : StepEnd i s (raiseFormatError s o)
  | goesOn (m : Memory) (r k : Word s.xw) : StepEnd i s { s with mem := m, result := r, k := k }

theorem exec_stepEnd {i : Instr} {s t : State} (h : exec i s = .next t) : StepEnd i s t := by
  cases i with
  | encsz =>
    obtain ⟨-, rfl⟩ := execEncsz_eq_next h
    exact .finishes _
  | enc =>
    obtain ⟨-, ⟨-, rfl⟩ | ⟨-, -, -, rfl⟩⟩ := execEnc_eq_next h
    · exact .finishes s.result
    · exact .goesOn _ _ _
  | decsz =>
    obtain ⟨-, rfl⟩ | ⟨-, rfl⟩ | ⟨-, -, -, ⟨-, rfl⟩ | ⟨-, rfl⟩⟩ := execDecsz_eq_next h
    · exact .reports (.inl rfl) _
    · exact .finishes 0
    · exact .reports (.inl rfl) _
    · exact .finishes _
  | val =>
    obtain ⟨-, rfl⟩ | ⟨-, -, rfl⟩ | ⟨-, -, -, ⟨o, -, rfl⟩ | ⟨-, rfl⟩⟩ := execVal_eq_next h
    · exact .reports (.inr rfl) _
    · exact .finishes s.result
    · exact .reports (.inr rfl) _
    · exact .goesOn s.mem s.result _
  | dec =>
    obtain ⟨-, ⟨-, rfl⟩ | ⟨-, hgroup⟩⟩ := execDec_eq_next h
    · exact .finishes s.result
    · obtain ⟨-, bs, -, -, -, rfl⟩ := decGroupStep_eq_next hgroup
      exact .goesOn _ _ _

/-! ### The source range decides what is read -/

/-- The same outcome, the next state's memory being `m`. -/
def withMemory (m : Memory) : Host.Outcome State Fault Refusal → Host.Outcome State Fault Refusal
  | .next t => .next { t with mem := m }
  | .fault r => .fault r
  | .refused r => .refused r

section SourceRange
variable {s : State} {m : Memory} (hm : ∀ i, i < s.len.toNat → m.read (s.src.toNat + i) = s.mem.read (s.src.toNat + i))
include hm

theorem readSrc_of_mem_agrees {i : Nat} (hi : i < s.len.toNat) : readSrc { s with mem := m } i = readSrc s i := by
  have hsees : engineSees { s with mem := m } (s.src.toNat + i) = engineSees s (s.src.toNat + i) := by
    simp only [engineSees, raceAt, hm i hi]
  simp only [readSrc, accessFault, hsees]

theorem gatherChars_of_mem_agrees {i : Nat} (hi : i + 4 ≤ s.len.toNat) :
    gatherChars { s with mem := m } i = gatherChars s i := by
  simp only [gatherChars, readSrc_of_mem_agrees hm (show i < s.len.toNat by omega),
    readSrc_of_mem_agrees hm (show i + 1 < s.len.toNat by omega),
    readSrc_of_mem_agrees hm (show i + 2 < s.len.toNat by omega),
    readSrc_of_mem_agrees hm (show i + 3 < s.len.toNat by omega)]

theorem execDecsz_of_mem_agrees : execDecsz { s with mem := m } = withMemory m (execDecsz s) := by
  unfold execDecsz
  by_cases h4 : s.len.toNat % 4 = 0
  case neg => simp only [h4, ne_eq, not_false_eq_true, if_true]; rfl
  case pos =>
    by_cases h0 : s.len.toNat = 0
    case pos => simp only [h0, Nat.zero_mod, ne_eq, not_true_eq_false, if_false, if_true]; rfl
    case neg =>
      simp only [h4, h0, gatherChars_of_mem_agrees hm (show s.len.toNat - 4 + 4 ≤ s.len.toNat by omega), ne_eq,
        not_true_eq_false, if_false]
      repeat' split
      all_goals rfl

theorem execVal_of_mem_agrees (hk : s.k.toNat ≤ textGroups s.len.toNat) :
    execVal { s with mem := m } = withMemory m (execVal s) := by
  unfold execVal
  by_cases h4 : s.len.toNat % 4 = 0
  case neg => simp only [h4, ne_eq, not_false_eq_true, if_true]; rfl
  case pos =>
    by_cases hend : s.k.toNat = textGroups s.len.toNat
    case pos => simp only [h4, hend, ne_eq, not_true_eq_false, if_false, if_true]; rfl
    case neg =>
      have hin : 4 * s.k.toNat + 4 ≤ s.len.toNat := by
        rw [textGroups] at hk hend
        omega
      simp only [h4, hend, gatherChars_of_mem_agrees hm hin, ne_eq, not_true_eq_false, if_false]
      repeat' split
      all_goals rfl

end SourceRange

/-! ### The obligations -/

/-- Settles O28: of the three ends of a step only the report is in ERROR. -/
theorem formatErrorEntry : Obligations.FormatErrorEntry := by
  intro i s t hbusy h herror
  cases exec_stepEnd h with
  | finishes r => exact nomatch herror
  | reports hi o => exact ⟨hi, o, rfl⟩
  | goesOn m r k => exact nomatch hbusy.symm.trans herror

/-- Settles O32, by the cases of each operation's step. -/
theorem readOnlyOperationsFrame : Obligations.ReadOnlyOperationsFrame := by
  refine fun s t => ⟨fun h => ?encsz, fun h => ?decsz, fun h => ?val⟩
  case encsz =>
    obtain ⟨-, rfl⟩ := execEncsz_eq_next h
    exact ⟨fun _ => rfl, _, rfl⟩
  case decsz =>
    obtain ⟨-, rfl⟩ | ⟨-, rfl⟩ | ⟨-, -, -, ⟨-, rfl⟩ | ⟨-, rfl⟩⟩ := execDecsz_eq_next h
    · exact ⟨fun _ => rfl, .inr ⟨_, _, _, rfl⟩⟩
    · exact ⟨fun _ => rfl, .inl ⟨_, rfl⟩⟩
    · exact ⟨fun _ => rfl, .inr ⟨_, _, _, rfl⟩⟩
    · exact ⟨fun _ => rfl, .inl ⟨_, rfl⟩⟩
  case val =>
    obtain ⟨-, rfl⟩ | ⟨-, -, rfl⟩ | ⟨-, -, -, ⟨o, -, rfl⟩ | ⟨-, rfl⟩⟩ := execVal_eq_next h
    · exact ⟨fun _ => rfl, .inr (.inr ⟨_, _, _, rfl⟩)⟩
    · exact ⟨fun _ => rfl, .inr (.inl rfl)⟩
    · exact ⟨fun _ => rfl, .inr (.inr ⟨_, _, _, rfl⟩)⟩
    · exact ⟨fun _ => rfl, .inl ⟨_, rfl⟩⟩

/-- Settles O33: ENC finishes, or writes its group and goes on. -/
theorem encFrame : Obligations.EncFrame := by
  intro s t hwf h
  obtain ⟨-, ⟨hk, rfl⟩ | ⟨hk, -, -, rfl⟩⟩ := execEnc_eq_next h
  · exact ⟨⟨_, _, _, _, rfl⟩, fun _ _ => rfl, fun hne => absurd hk hne⟩
  · exact ⟨⟨s.status.state, _, _, _, rfl⟩, fun heq => absurd heq hk,
      fun _ => ⟨rfl, fun a ha => read_engineStores_of_ne hwf ha⟩⟩

/-- Settles O34: DEC finishes, or writes its group and goes on. -/
theorem decFrame : Obligations.DecFrame := by
  intro s t hwf h
  obtain ⟨-, ⟨hk, rfl⟩ | ⟨hk, hgroup⟩⟩ := execDec_eq_next h
  · exact ⟨⟨_, _, _, _, rfl⟩, fun _ _ => rfl, fun hne => absurd hk hne⟩
  · obtain ⟨-, bs, hbs, -, -, rfl⟩ := decGroupStep_eq_next hgroup
    refine ⟨⟨s.status.state, _, _, _, rfl⟩, fun heq => absurd heq hk, fun _ => ⟨rfl, fun bs' hbs' a ha => ?_⟩⟩
    obtain rfl : bs = bs' := Option.some.inj (hbs.symm.trans hbs')
    exact read_engineStores_of_ne hwf ha

/-- Settles O35: the characters DECSZ and VAL read lie in the source range, and nothing else of memory enters. -/
theorem readOnlyOperationsReadTheSource : Obligations.ReadOnlyOperationsReadTheSource := by
  intro s m hk hm
  refine ⟨fun t h => ?_, fun t h => ?_, fun r h => ?_, fun r h => ?_⟩
  · exact (execDecsz_of_mem_agrees hm).trans (congrArg (withMemory m) h)
  · exact (execVal_of_mem_agrees hm hk).trans (congrArg (withMemory m) h)
  · exact (execDecsz_of_mem_agrees hm).trans (congrArg (withMemory m) h)
  · exact (execVal_of_mem_agrees hm hk).trans (congrArg (withMemory m) h)

end Sys2Proof.Machine
end

