-- ==== Sys2Proof/Proofs/HostMoves.lean ====
section
/-! PROOFS. The moves of the host and of reset (10_state.md sections 4, 5, 8, 20_memory.md section 8): how a step
reaches each move, what the move answers, and the obligations. -/

namespace Sys2Proof.Machine

/-! ### How a step reaches a move -/

section Moves
variable {s : State} {rest : List (Move s.xw)}

theorem step_of_engine (h : s.inputs = .engine :: rest) : step s = engineTurn { s with inputs := rest } := by
  unfold step takeTurn
  rw [h]

theorem step_of_read {i : Nat} (h : s.inputs = .read i :: rest) : step s = hostRead { s with inputs := rest } i := by
  unfold step takeTurn
  rw [h]

theorem step_of_store {a : Word s.xw} {b : Byte} (h : s.inputs = .store a b :: rest) :
    step s = hostStore { s with inputs := rest } a b := by
  unfold step takeTurn
  rw [h]

theorem step_of_load {a : Word s.xw} (h : s.inputs = .load a :: rest) :
    step s = hostLoad { s with inputs := rest } a := by
  unfold step takeTurn
  rw [h]

theorem step_of_own {rs : List Region} (h : s.inputs = .own rs :: rest) :
    step s = hostOwn { s with inputs := rest } rs := by
  unfold step takeTurn
  rw [h]

theorem step_of_wait (h : s.inputs = .wait :: rest) : step s = waitTurn s rest := by
  unfold step takeTurn
  rw [h]

theorem step_of_reset (h : s.inputs = .reset :: rest) : step s = .next (resetBlock { s with inputs := rest }) := by
  unfold step takeTurn
  rw [h]

theorem step_of_resetMidStep (h : s.inputs = .resetMidStep :: rest) :
    step s = resetInStep { s with inputs := rest } := by
  unfold step takeTurn
  rw [h]

end Moves

theorem isBusy_iff {s : State} : s.isBusy = true ↔ s.status.state = .busy := decide_eq_true_iff

/-- A WAIT lets a BUSY engine step. -/
theorem waitTurn_of_busy {s : State} (hb : s.status.state = .busy) (rest : List (Move s.xw)) :
    waitTurn s rest = engineTurn s :=
  if_pos (isBusy_iff.2 hb)

/-! ### Register writes -/

theorem hostWrite_cmd {s : State} (hb : s.status.state ≠ .busy) (v : Word s.xw) :
    hostWrite s 0 v = .next (issueCommand s v) := by
  simp [hostWrite, isBusy_eq_false hb]

theorem hostWrite_of_busy {s : State} (hb : s.status.state = .busy) {i : Nat} (hi : i ≤ 3) (v : Word s.xw) :
    hostWrite s i v = .next s := by
  have hbusy := isBusy_iff.2 hb
  obtain rfl | rfl | rfl | rfl : i = 0 ∨ i = 1 ∨ i = 2 ∨ i = 3 := by omega
  all_goals simp only [hostWrite, hbusy, if_true]

/-- STATUS after a command issue, by the fields of the word. -/
theorem issueCommand_status {s : State} (hw : Config.minWidth ≤ s.xw) (v : Word s.xw) :
    (issueCommand s v).status =
      if v.toNat / 8 ≠ 0 ∨ v.toNat % 8 = 0 ∨ v.toNat % 8 = 6 ∨ v.toNat % 8 = 7 then ⟨.error, .illegalOp⟩
      else ⟨.busy, .none⟩ := by
  have h3 := three_le_of_minWidth hw
  cases hd : decode v with
  | instr i =>
    have hcode := (decode_eq_instr_iff h3 v i).1 hd
    have hpos : 1 ≤ opCode i := by cases i <;> decide
    have hle := opCode_le_five i
    rw [issueCommand_status_legal s v hd, if_neg (by omega)]
  | reject r =>
    rw [issueCommand_status_illegal s v hd, if_pos]
    cases r with
    | reservedBits =>
      have hbits := (decode_eq_reservedBits_iff h3 v).1 hd
      omega
    | reservedOp =>
      have hop := (decode_eq_reservedOp_iff h3 v).1 hd
      omega

/-- The buffers of a command are decided by memory and the operand registers. -/
theorem openWindows_congr {s : State} (c r p e k : Word s.xw) (st : Status) (d : Decoded) :
    openWindows { s with cmd := c, status := st, result := r, errpos := p, errchar := e, k := k } d =
      openWindows s d := by
  cases d with
  | reject _ => rfl
  | instr i =>
    have hdest : destRange { s with cmd := c, status := st, result := r, errpos := p, errchar := e, k := k } i =
      destRange s i := by
      apply destRange_congr <;> rfl
    simp only [openWindows, hdest]
    cases i <;> rfl

/-! ### Register reads -/

/-- The registers by number, as a list. -/
def registers (s : State) : List (Word s.xw) :=
  [s.cmd, s.src, s.len, s.dst, statusWord s.xw s.status, s.result, s.errpos, s.errchar]

theorem regValue_eq_getElem? (s : State) (i : Nat) : regValue s i = (registers s)[i]? := by
  match i with
  | 0 | 1 | 2 | 3 | 4 | 5 | 6 | 7 => rfl
  | _ + 8 => rfl

theorem showsEnd_iff (s : State) (i : Nat) : showsEnd s i = true ↔ i = 4 ∧ s.status.state ≠ .busy := by
  simp [showsEnd, State.isBusy]

theorem hostRead_of_regValue {s : State} {i : Nat} {v : Word s.xw} (h : regValue s i = some v) :
    hostRead s i = .next { s with
      observed := .reg i v :: s.observed
      windows := if i = 4 ∧ s.status.state ≠ .busy then [] else s.windows
      raced := if i = 4 ∧ s.status.state ≠ .busy then [] else s.raced } := by
  simp only [hostRead, h, showsEnd_iff]

theorem hostRead_unmapped {s : State} {i : Nat} (h : 7 < i) : hostRead s i = .refused (.unmappedRegister i) := by
  have hnone : regValue s i = none := by
    rw [regValue_eq_getElem?]
    exact List.getElem?_eq_none h
  simp only [hostRead, hnone]

theorem stateCode_lt (st : EngState) : stateCode st < 4 := by cases st <;> decide

theorem errCode_lt (e : ErrCode) : errCode e < 8 := by
  obtain _ | (_ | _ | _) | _ := e
  all_goals decide

/-- The STATUS word is its two codes, side by side (R27). -/
theorem statusWord_toNat {n : Nat} (hn : Config.minWidth ≤ n) (st : Status) :
    (statusWord n st).toNat = stateCode st.state + 4 * errCode st.err := by
  have hpow := two_pow_ge_of_minWidth hn
  have hstate := stateCode_lt st.state
  have herr := errCode_lt st.err
  exact toNat_ofNat_of_lt (by omega)

/-! ### Buffer memory from outside the engine -/

theorem inDest_iff {ws : List Window} {a : Nat} : inDest ws a = true ↔ ∃ w ∈ ws, w.dst.has a = true :=
  List.any_eq_true

theorem inDest_eq_false_iff {ws : List Window} {a : Nat} : inDest ws a = false ↔ ∀ w ∈ ws, w.dst.has a = false := by
  rw [inDest, List.any_eq_false]
  exact forall₂_congr fun _ _ => Bool.not_eq_true _ ▸ Iff.rfl

/-- A load that sees no race sees memory as it is, or as it was when one of the open operations was issued. -/
theorem earlyLoad_of_no_hit {s : State} {a : Nat} (h : ∀ w ∈ s.windows, w.dst.has a = true → a ∉ w.hits) :
    earlyLoad s a = s.mem.read a ∨ ∃ w ∈ s.windows, w.dst.has a = true ∧ earlyLoad s a = w.old.read a := by
  have hmiss : ¬ destHit s a = true := by
    simp only [destHit, List.any_eq_true, Bool.and_eq_true, List.contains_iff_mem]
    rintro ⟨w, hw, hdst, hhit⟩
    exact h w hw hdst hhit
  have hmem : earlyLoad s a = s.mem.read a ∨ earlyLoad s a ∈ versionsOf s a := by
    rw [earlyLoad, if_neg hmiss, List.getD_eq_getElem?_getD]
    cases hget : (versionsOf s a)[Config.loadSees s.freeCount]? with
    | none => exact .inl rfl
    | some b => exact .inr (List.mem_of_getElem? hget)
  obtain hcur | hversion := hmem
  · exact .inl hcur
  · obtain hcur | ⟨w, hw, hold⟩ := List.mem_cons.1 hversion |>.imp_right List.mem_map.1
    · exact .inl hcur
    · obtain ⟨hin, hdst⟩ := List.mem_filter.1 hw
      exact .inr ⟨w, hin, hdst, hold.symm⟩

theorem raceAt_cons (s : State) {t : State} {a n : Nat} (h : t.raced = (a, n) :: s.raced) (x : Nat) :
    raceAt t x = if x = a then some n else raceAt s x := by
  simp only [raceAt, h, List.find?_cons]
  by_cases hx : x = a
  · simp [hx]
  · have hne : (a == x) = false := beq_eq_false_iff_ne.2 (Ne.symm hx)
    simp only [hne, if_neg hx]

/-- What the engine reads is decided by the races and by memory. -/
theorem engineSees_congr {s t : State} {a : Nat} (hrace : raceAt t a = raceAt s a)
    (hmem : t.mem.read a = s.mem.read a) : engineSees t a = engineSees s a := by
  simp only [engineSees, hrace, hmem]

theorem hostStore_of_free {s : State} {a : Word s.xw} (b : Byte) (h : contested s a.toNat = false) :
    hostStore s a b = .next { s with mem := s.mem.write a.toNat b } := by
  simp only [hostStore, h, Bool.false_eq_true, if_false]

theorem hostStore_of_contested {s : State} {a : Word s.xw} (b : Byte) (h : contested s a.toNat = true) :
    hostStore s a b = .next { s with
      mem := s.mem.write a.toNat
        (if inDest (noteStore s a.toNat) a.toNat then Config.racedByte s.freeCount else b)
      windows := noteStore s a.toNat
      raced := (a.toNat, s.freeCount) :: s.raced
      freeCount := s.freeCount + 1 } := by
  simp only [hostStore, h, if_true]

/-- The buffers a legal command opens are contested, beside those still open. -/
theorem contested_issueCommand (s : State) {v : Word s.xw} {i : Instr} (h : decode v = .instr i) (a : Nat) :
    contested (issueCommand s v) a =
      ((sourceRange s i).has a || (destMost s i).has a || contested s a) := by
  simp only [contested, issueCommand_windows, h, openWindows, List.any_cons]

/-! ### The obligations: commands and register writes -/

/-- Settles O36: the write is the command issue, and the word's two fields decide STATUS. -/
theorem commandIssue : Obligations.CommandIssue := by
  intro s v rest hw hb h
  have hstatus := issueCommand_status (s := { s with inputs := rest }) hw v
  refine ⟨s.ownedNext.getD s.owned, none, openWindows { s with inputs := rest } (decode v), [], ?_,
    fun hnone => by rw [hnone]; rfl⟩
  rw [← hstatus]
  exact (step_of_write h).trans (hostWrite_cmd (s := { s with inputs := rest }) hb v)

/-- Settles O38. -/
theorem busyWritesIgnored : Obligations.BusyWritesIgnored := by
  intro s i v rest hb hi h
  exact (step_of_write h).trans (hostWrite_of_busy (s := { s with inputs := rest }) hb hi v)

/-- Settles O60: the command issue sets every register it does not leave to the host, and the buffers it opens depend on
the host's registers and memory only. -/
theorem commandForgetsThePast : Obligations.CommandForgetsThePast := by
  intro s v c r p e k st hb hb'
  have hwindows := openWindows_congr c r p e k st (decode v)
  rw [hostWrite_cmd hb]
  refine (hostWrite_cmd (s := { s with cmd := c, status := st, result := r, errpos := p, errchar := e, k := k })
    hb' v).trans ?_
  rw [issueCommand, hwindows]
  rfl

/-- Settles O47: launching is issuing, and the next turn is the engine's. -/
theorem fetchWordRunsTheCommand : Obligations.FetchWordRunsTheCommand := by
  intro s w i _ hw _ hd
  have hword : w % 2 ^ 32 = w := Nat.mod_eq_of_lt hw
  have hissue : s.withFetchWord 32 w = issueCommand { s with inputs := [] } (BitVec.ofNat s.xw w) := by
    rw [State.withFetchWord, launchWord, hword]
  rw [hissue]
  have hstatus := issueCommand_status_legal { s with inputs := [] } _ hd
  refine ⟨step_of_busy (congrArg Status.state hstatus) hd rfl, ?_⟩
  have hdest : destRange { s with inputs := [] } i = destRange s i := by
    apply destRange_congr <;> rfl
  rw [issueCommand, hd, openWindows, hdest]
  cases i <;> rfl

/-! ### The obligations: reads, stores and loads -/

/-- Settles O40. -/
theorem hostReads : Obligations.HostReads := by
  refine fun s rest => ⟨fun i v h hv => ?read, fun i h hi => ?unmapped, fun a h hfree => ?load,
    fun a h hopen => ?early⟩
  case read =>
    exact (step_of_read h).trans (hostRead_of_regValue (s := { s with inputs := rest })
      ((regValue_eq_getElem? _ i).trans hv))
  case unmapped => exact (step_of_read h).trans (hostRead_unmapped hi)
  case load =>
    refine (step_of_load h).trans ?_
    rw [hostLoad, inDest_eq_false_iff.2 hfree]
    rfl
  case early =>
    refine ⟨earlyLoad { s with inputs := rest } a.toNat, (step_of_load h).trans ?_,
      earlyLoad_of_no_hit (s := { s with inputs := rest })⟩
    rw [hostLoad, inDest_iff.2 hopen]
    rfl

/-- Settles O41: the word is `STATE + 4 * ERR`, and `STATE` is below 4. -/
theorem statusWordLayout : Obligations.StatusWordLayout := by
  intro n hn st
  have hstate := stateCode_lt st.state
  rw [statusWord_toNat hn, show (stateCode st.state + 4 * errCode st.err) % 4 = stateCode st.state by omega,
    show (stateCode st.state + 4 * errCode st.err) / 4 = errCode st.err by omega]
  obtain ⟨state, err⟩ := st
  refine ⟨?_, ?_⟩
  · cases state <;> rfl
  · obtain _ | (_ | _ | _) | _ := err
    all_goals rfl

/-- Settles O42: off the open buffers the store is plain; on them it is the newest race. -/
theorem outsideStores : Obligations.OutsideStores := by
  refine fun s a b => ⟨fun rest hwf h => ⟨fun hfree hrace => ?free, fun hcon => ?race⟩, fun v i hnil hd => ?buffers⟩
  case free =>
    have hread (x : Nat) := Memory.read_write a.toNat x b hwf
    refine ⟨s.mem.write a.toNat b,
      (step_of_store h).trans (hostStore_of_free (s := { s with inputs := rest }) b hfree), ?_, ?_, fun x hx => ?_⟩
    · rw [hread, if_pos rfl]
    · rw [engineSees_of_no_race (s := { s with inputs := rest, mem := s.mem.write a.toNat b }) hrace]
      exact (hread a.toNat).trans (if_pos rfl)
    · rw [hread, if_neg hx]
  case race =>
    have hread (x : Nat) (c : Byte) := Memory.read_write a.toNat x c hwf
    refine ⟨_, (step_of_store h).trans (hostStore_of_contested (s := { s with inputs := rest }) b hcon),
      ⟨_, _, rfl⟩, ?_, fun hout => ?_, fun x hx => ?_⟩
    · exact engineSees_of_race ((raceAt_cons s rfl a.toNat).trans (if_pos rfl))
    · exact (hread a.toNat _).trans ((if_pos rfl).trans (if_neg (ne_true_of_eq_false hout)))
    · have hmem (c : Byte) : (s.mem.write a.toNat c).read x = s.mem.read x := (hread x c).trans (if_neg hx)
      exact ⟨hmem _, engineSees_congr ((raceAt_cons s rfl x).trans (if_neg hx)) (hmem _)⟩
  case buffers =>
    have hclosed : contested s a.toNat = false := by rw [contested, hnil]; rfl
    rw [contested_issueCommand s hd, hclosed, Bool.or_false, Bool.or_eq_true]

/-! ### The obligations: reset and the engine's turn -/

/-- Settles O43. -/
theorem resetClearsTheBlock : Obligations.ResetClearsTheBlock := by
  intro s rest h
  have hstep := step_of_reset h
  refine ⟨hstep, fun t ht => ?_⟩
  obtain rfl : resetBlock { s with inputs := rest } = t := Host.Outcome.next.inj (hstep.symm.trans ht)
  exact ⟨rfl, engineTurn_not_busy nofun⟩

/-- Settles O44: the eight registers of the reset state. -/
theorem resetStateValues : Obligations.ResetStateValues := by
  refine ⟨fun i hi => ?_, rfl, rfl⟩
  interval_cases i <;> rfl

/-- Settles O46: in each of the three ways the engine has the turn, which runs the operation the command names. -/
theorem stepRunsTheCommand : Obligations.StepRunsTheCommand := by
  intro s i hb hd
  have hop := selectOp_of_decode hd
  refine ⟨fun h => (step_of_no_input h).trans (engineTurn_busy hb hop), fun rest h => ?_, fun rest h => ?_⟩
  · exact (step_of_engine h).trans (engineTurn_busy (s := { s with inputs := rest }) hb hop)
  · exact (step_of_wait h).trans ((waitTurn_of_busy hb rest).trans (engineTurn_busy hb hop))

/-- Settles O48. -/
theorem engineIdlesUnlessBusy : Obligations.EngineIdlesUnlessBusy := by
  intro s hb
  exact ⟨fun h => (step_of_no_input h).trans (engineTurn_not_busy hb),
    fun rest h => (step_of_engine h).trans (engineTurn_not_busy (s := { s with inputs := rest }) hb)⟩

end Sys2Proof.Machine
end

