-- ==== Sys2Proof/Proofs/Turns.lean ====
section
/-! PROOFS. All that one step of the machine can do, by whose move it is (10_state.md section 5, 60_exceptions.md
section 6, 70_reset_and_hazards.md section 1), and the obligations about STATE and about reset inside a step. -/

namespace Sys2Proof.Machine

/-- What a step from `s` can lead to. -/
inductive Turn (s : State) : State → Prop
  /-- The engine is BUSY and runs its operation. -/
  | engine (ins : List (Move s.xw)) {i : Instr} {t : State} (hn : engineNext s = true) (hb : s.status.state = .busy)
      (hop : runningOp s = some i) (h : exec i { s with inputs := ins } = .next t) : Turn s t
  /-- The host issues a command. -/
  | command (rest : List (Move s.xw)) (v : Word s.xw) (hn : commandNext s = true) (hb : s.status.state ≠ .busy) :
      Turn s (issueCommand { s with inputs := rest } v)
  /-- The host writes an operand register. -/
  | operands (rest : List (Move s.xw)) (a b c : Word s.xw) (hb : s.status.state ≠ .busy) :
      Turn s { s with inputs := rest, src := a, len := b, dst := c }
  /-- Nothing of the block changes: the engine has no step, or the host reads, stores, loads or sets `Owned`. -/
  | outside (ins : List (Move s.xw)) (m : Memory) (own : List Region) (own' : Option (List Region)) (ws : List Window)
      (rs : List (Nat × Nat)) (obs : List (Observed s.xw)) (c : Nat)
      (hm : m = s.mem ∨ ∃ (a : Word s.xw) (x : Byte), m = s.mem.write a.toNat x)
      (hw : s.status.state = .busy → (ws = [] ↔ s.windows = [])) :
      Turn s { s with
        inputs := ins, mem := m, owned := own, ownedNext := own', windows := ws, raced := rs, observed := obs
        freeCount := c }
  /-- Reset, between two engine steps or inside one. -/
  | reset (ins : List (Move s.xw)) (m : Memory) (c : Nat) (hn : resetNext s = true)
      (hm : m = s.mem ∨ ∃ (i : Instr) (t : State) (dest : List Nat), s.status.state = .busy ∧ runningOp s = some i ∧
        exec i { s with inputs := ins } = .next t ∧ m = landSome t.mem s.freeCount dest s.mem) :
      Turn s (resetBlock { s with inputs := ins, mem := m, freeCount := c })

section Turns
variable {s t : State} {rest : List (Move s.xw)}

/-- A step that leaves memory and the windows alone. -/
theorem Turn.unchanged (s : State) (ins : List (Move s.xw)) : Turn s { s with inputs := ins } :=
  .outside ins s.mem s.owned s.ownedNext s.windows s.raced s.observed s.freeCount (.inl rfl) fun _ => Iff.rfl

theorem turn_of_engineTurn (hn : engineNext s = true) (h : engineTurn { s with inputs := rest } = .next t) :
    Turn s t := by
  obtain ⟨-, rfl⟩ | ⟨hb, i, hop, hexec⟩ := engineTurn_eq_next h
  · exact .unchanged s rest
  · exact .engine rest hn hb hop hexec

theorem turn_of_hostWrite {i : Nat} {v : Word s.xw} (hin : s.inputs = .write i v :: rest)
    (h : hostWrite { s with inputs := rest } i v = .next t) : Turn s t := by
  by_cases hb : s.status.state = .busy
  · by_cases hi : i ≤ 7
    · have hignored : hostWrite { s with inputs := rest } i v = .next { s with inputs := rest } := by
        by_cases h3 : i ≤ 3
        · exact hostWrite_of_busy (s := { s with inputs := rest }) hb h3 v
        · exact hostWrite_readOnly (by omega) hi { s with inputs := rest } v
      obtain rfl := Host.Outcome.next.inj (hignored.symm.trans h)
      exact .unchanged s rest
    · obtain ⟨j, rfl⟩ : ∃ j, i = j + 8 := ⟨i - 8, by omega⟩
      cases h
  · match i with
    | 0 =>
      obtain rfl := Host.Outcome.next.inj ((hostWrite_cmd (s := { s with inputs := rest }) hb v).symm.trans h)
      exact .command rest v (by simp only [commandNext, hin]) hb
    | 1 =>
      obtain rfl := Host.Outcome.next.inj ((hostWrite_src (s := { s with inputs := rest }) hb v).symm.trans h)
      exact .operands rest v s.len s.dst hb
    | 2 =>
      obtain rfl := Host.Outcome.next.inj ((hostWrite_len (s := { s with inputs := rest }) hb v).symm.trans h)
      exact .operands rest s.src v s.dst hb
    | 3 =>
      obtain rfl := Host.Outcome.next.inj ((hostWrite_dst (s := { s with inputs := rest }) hb v).symm.trans h)
      exact .operands rest s.src s.len v hb
    | 4 | 5 | 6 | 7 =>
      cases h
      exact .unchanged s rest
    | _ + 8 => cases h

theorem turn_of_hostRead {i : Nat} (h : hostRead { s with inputs := rest } i = .next t) : Turn s t := by
  obtain ⟨v, -, rfl⟩ := hostRead_eq_next h
  refine .outside rest s.mem s.owned s.ownedNext _ _ _ s.freeCount (.inl rfl) fun hb => ?_
  rw [showsEnd_of_busy (s := { s with inputs := rest }) hb]
  rfl

theorem turn_of_hostStore {a : Word s.xw} {b : Byte} (h : hostStore { s with inputs := rest } a b = .next t) :
    Turn s t := by
  obtain ⟨x, ws, rs, c, rfl, hws⟩ := hostStore_eq_next h
  exact .outside rest _ s.owned s.ownedNext ws rs s.observed c (.inr ⟨a, x, rfl⟩) fun _ => hws

theorem turn_of_hostLoad {a : Word s.xw} (h : hostLoad { s with inputs := rest } a = .next t) : Turn s t := by
  obtain ⟨b, c, rfl⟩ := hostLoad_eq_next h
  exact .outside rest s.mem s.owned s.ownedNext s.windows s.raced _ c (.inl rfl) fun _ => Iff.rfl

theorem turn_of_hostOwn {rs : List Region} (h : hostOwn { s with inputs := rest } rs = .next t) : Turn s t := by
  obtain rfl := Host.Outcome.next.inj h
  split
  · exact .outside rest s.mem s.owned (some rs) s.windows s.raced s.observed s.freeCount (.inl rfl) fun _ => Iff.rfl
  · exact .outside rest s.mem rs none s.windows s.raced s.observed s.freeCount (.inl rfl) fun _ => Iff.rfl

/-- A reset inside a step takes the step's next state only for the bytes that land. -/
theorem resetInStep_of_busy {i : Instr} (hb : s.status.state = .busy) (hop : runningOp s = some i)
    (h : exec i s = .next t) :
    resetInStep s = .next (resetBlock { s with
      mem := landSome t.mem s.freeCount (stepDest s i) s.mem
      freeCount := s.freeCount + (stepDest s i).length }) := by
  simp only [resetInStep, hb, hop, h]

theorem resetInStep_of_not_busy (hb : s.status.state ≠ .busy) : resetInStep s = .next (resetBlock s) := by
  unfold resetInStep
  cases hst : s.status.state with
  | busy => exact absurd hst hb
  | idle | done | error => rfl

theorem turn_of_resetInStep (hn : resetNext s = true) (h : resetInStep { s with inputs := rest } = .next t) :
    Turn s t := by
  by_cases hb : s.status.state = .busy
  · have h' := h
    simp only [resetInStep, hb] at h'
    split at h'
    · rename_i i hop
      split at h'
      · rename_i t' hexec
        obtain rfl := Host.Outcome.next.inj h'
        exact .reset rest _ _ hn (.inr ⟨i, t', _, hb, hop, hexec, rfl⟩)
      · cases h'
      · cases h'
    · cases h'
  · obtain rfl := Host.Outcome.next.inj ((resetInStep_of_not_busy (s := { s with inputs := rest }) hb).symm.trans h)
    exact .reset rest s.mem s.freeCount hn (.inl rfl)

end Turns

/-- Every step is one of the turns, by the next move of the list. -/
theorem step_turn {s t : State} (h : step s = .next t) : Turn s t := by
  cases hin : s.inputs with
  | nil =>
    have hturn := (step_of_no_input hin).symm.trans h
    exact turn_of_engineTurn (rest := s.inputs) (by simp only [engineNext, hin]) hturn
  | cons move rest =>
    cases move with
    | engine => exact turn_of_engineTurn (by simp only [engineNext, hin]) ((step_of_engine hin).symm.trans h)
    | write i v => exact turn_of_hostWrite hin ((step_of_write hin).symm.trans h)
    | read i => exact turn_of_hostRead ((step_of_read hin).symm.trans h)
    | store a b => exact turn_of_hostStore ((step_of_store hin).symm.trans h)
    | load a => exact turn_of_hostLoad ((step_of_load hin).symm.trans h)
    | own rs => exact turn_of_hostOwn ((step_of_own hin).symm.trans h)
    | wait =>
      have hwait := (step_of_wait hin).symm.trans h
      rw [waitTurn] at hwait
      split at hwait
      · exact turn_of_engineTurn (rest := s.inputs) (by simp only [engineNext, hin]) hwait
      · exact turn_of_hostRead hwait
    | reset =>
      obtain rfl := Host.Outcome.next.inj ((step_of_reset hin).symm.trans h)
      exact .reset rest s.mem s.freeCount (by simp only [resetNext, hin]) (.inl rfl)
    | resetMidStep =>
      exact turn_of_resetInStep (by simp only [resetNext, hin]) ((step_of_resetMidStep hin).symm.trans h)

/-- A command issue ends in BUSY or in ERROR. -/
theorem issueCommand_state (s : State) (v : Word s.xw) :
    (issueCommand s v).status.state = .busy ∨ (issueCommand s v).status.state = .error := by
  cases hd : decode v with
  | instr i => exact .inl (congrArg Status.state (issueCommand_status_legal s v hd))
  | reject r => exact .inr (congrArg Status.state (issueCommand_status_illegal s v hd))

/-! ### The obligations -/

/-- Settles O49, by the turn the step is. -/
theorem controlFlowTransitions : Obligations.ControlFlowTransitions := by
  intro s t h
  cases step_turn h with
  | engine ins hn hb _ hexec =>
    cases exec_stepEnd hexec with
    | finishes r => exact .inr (.inr (.inl ⟨hn, hb, .inl rfl⟩))
    | reports _ o => exact .inr (.inr (.inl ⟨hn, hb, .inr rfl⟩))
    | goesOn m r k => exact .inl rfl
  | command rest v hn hb => exact .inr (.inl ⟨hn, hb, issueCommand_state _ v⟩)
  | operands => exact .inl rfl
  | outside => exact .inl rfl
  | reset ins m c hn => exact .inr (.inr (.inr ⟨hn, rfl⟩))

/-- Settles O45: each byte lands or does not. -/
theorem resetInsideAStep : Obligations.ResetInsideAStep := by
  intro s t i rest hwf hin hb hd hexec
  exact ⟨landSome t.mem s.freeCount (stepDest { s with inputs := rest } i) s.mem, _,
    (step_of_resetMidStep hin).trans
      (resetInStep_of_busy (s := { s with inputs := rest }) hb (selectOp_of_decode hd) hexec),
    landSome_read t.mem s.freeCount _ hwf⟩

end Sys2Proof.Machine
end

