-- ==== Sys2Proof/Proofs/Invariant.lean ====
section
/-! PROOFS. The invariant of the machine (10_state.md sections 4, 6, 20_memory.md section 1): how a group step keeps its
progress and its memory, how each turn keeps the invariant, what RESULT is at the end of an operation, how an operation
ends (60_exceptions.md section 6), and the obligations. -/

namespace Sys2Proof.Machine

/-! ### The fields of the invariant -/

theorem coherent_iff {st : Status} : st.coherent = true ↔ (st.err ≠ .none ↔ st.state = .error) := by
  simp only [Status.coherent, beq_iff_eq, decide_eq_decide]

/-- A BUSY block reports no error. -/
theorem Inv.err_of_busy {s : State} (hI : Inv s) (hb : s.status.state = .busy) : s.status.err = .none := by
  by_contra herr
  exact nomatch hb.symm.trans ((coherent_iff.1 hI.coherent).1 herr)

/-- What a running operation's command decodes to is what its steps run. -/
theorem decode_of_runningOp {s : State} {i : Instr} (hI : Inv s) (hb : s.status.state = .busy)
    (hop : runningOp s = some i) : decode s.cmd = .instr i ∧ progress s i := by
  obtain ⟨j, hd, hp⟩ := hI.busy hb
  obtain rfl : i = j := Option.some.inj (hop.symm.trans (selectOp_of_decode hd))
  exact ⟨hd, hp⟩

theorem Inv.progress_of_decode {s : State} {i : Instr} (hI : Inv s) (hb : s.status.state = .busy)
    (hd : decode s.cmd = .instr i) : progress s i :=
  (decode_of_runningOp hI hb (selectOp_of_decode hd)).2

/-! ### How many bytes a group has -/

theorem decGroup_length {g : TextGroup} {bs : List Byte} (h : decGroup g = some bs) :
    1 ≤ bs.length ∧ bs.length ≤ 3 ∧ (isPad g.c3 = false → bs.length = 3) := by
  have hshape : g.full = true ∨ g.pad1 = true ∨ g.pad2 = true := by
    by_contra hnone
    exact nomatch h.symm.trans (decGroup_eq_none_of_no_shape hnone)
  rw [full_iff, pad1_iff, pad2_iff] at hshape
  obtain ⟨v0, v1, v2, v3, rfl⟩ | ⟨v0, v1, v2, rfl⟩ | ⟨v0, v1, rfl⟩ := hshape
  · obtain rfl := Option.some.inj ((decGroup_fullGroup v0 v1 v2 v3).symm.trans h)
    simp
  · obtain rfl := Option.some.inj ((decGroup_pad1Group v0 v1 v2).symm.trans h)
    simp [pad1Group]
  · obtain rfl := Option.some.inj ((decGroup_pad2Group v0 v1).symm.trans h)
    simp [pad2Group]

/-! ### A group step -/

/-- The engine's writes keep memory canonical and inside the address space. -/
theorem engineStores_wf_below {s : State} {e : Nat} {bs : List Byte} (hwf : s.mem.wf = true)
    (hbelow : s.mem.below (2 ^ s.xw) = true) (hd : ∀ j, j < bs.length → DstOk s (e + j)) :
    (engineStores s (s.dst.toNat + e) bs).wf = true ∧
      (engineStores s (s.dst.toNat + e) bs).below (2 ^ s.xw) = true := by
  refine ⟨writeBytes_wf _ _ hwf, ?_⟩
  obtain hnil | hpos := Nat.eq_zero_or_pos bs.length
  · obtain rfl := List.eq_nil_of_length_eq_zero hnil
    exact hbelow
  · obtain ⟨hlt, -, -⟩ := hd (bs.length - 1) (by omega)
    refine writeBytes_below _ _ hbelow ?_
    rw [landedBytes_length]
    omega

/-- The steps of an operation before the last: `stepBound` but for the finishing step. -/
def groupsOf (n : Nat) : Instr → Nat
  | .encsz => 0
  | .enc => binGroups n
  | .decsz => 0
  | .val => textGroups n
  | .dec => textGroups n

theorem stepBound_eq (n : Nat) (i : Instr) : stepBound n i = groupsOf n i + 1 := by cases i <;> rfl

theorem k_le_of_progress {s : State} {i : Instr} (h : progress s i) : s.k.toNat ≤ groupsOf s.len.toNat i := by
  cases i with
  | encsz => exact Nat.le_of_eq h.1
  | enc => exact h.1
  | decsz => exact Nat.le_of_eq h.1
  | val => exact h.1
  | dec => exact h.1

theorem progress_dec_of {t : State} {n k r : Nat} (hn : textGroups t.len.toNat = n) (hk : t.k.toNat = k)
    (hr : t.result.toNat = r) (h : k ≤ n ∧ (k < n → r = 3 * k) ∧ r ≤ 3 * k ∧ 3 * k ≤ r + 2) : progress t .dec := by
  subst hn hk hr
  exact h

/-- What a group step keeps and where it leads. -/
structure GroupDone (i : Instr) (s t : State) : Prop where
  memWf : t.mem.wf = true
  memBelow : t.mem.below (2 ^ s.xw) = true
  progress : progress t i
  k : t.k.toNat = s.k.toNat + 1

section GroupStep
variable {s t : State} (hwf : s.mem.wf = true) (hbelow : s.mem.below (2 ^ s.xw) = true)
  (hbt : t.status.state = .busy)
include hwf hbelow hbt

theorem execEnc_groupDone (hp : progress s .enc) (h : execEnc s = .next t) : GroupDone .enc s t := by
  obtain ⟨hk, hr⟩ := hp
  obtain ⟨hfit, ⟨-, rfl⟩ | ⟨hne, -, hd, rfl⟩⟩ := execEnc_eq_next h
  · cases hbt
  · obtain ⟨hwf', hbelow'⟩ := engineStores_wf_below (bs := (encGroupOf s).toList) hwf hbelow hd
    have hk' : (BitVec.ofNat s.xw (s.k.toNat + 1)).toNat = s.k.toNat + 1 := toNat_ofNat_of_lt (by omega)
    have hr' : (BitVec.ofNat s.xw (s.result.toNat + 4)).toNat = s.result.toNat + 4 := toNat_ofNat_of_lt (by omega)
    refine ⟨hwf', hbelow', ?_, hk'⟩
    change (BitVec.ofNat s.xw (s.k.toNat + 1)).toNat ≤ binGroups s.len.toNat ∧
      (BitVec.ofNat s.xw (s.result.toNat + 4)).toNat = 4 * (BitVec.ofNat s.xw (s.k.toNat + 1)).toNat
    rw [hk', hr']
    omega

theorem execVal_groupDone (hp : progress s .val) (h : execVal s = .next t) : GroupDone .val s t := by
  obtain ⟨hk, hr⟩ := hp
  have hlen := s.len.isLt
  obtain ⟨-, rfl⟩ | ⟨-, -, rfl⟩ | ⟨-, hne, -, ⟨o, -, rfl⟩ | ⟨-, rfl⟩⟩ := execVal_eq_next h
  · cases hbt
  · cases hbt
  · cases hbt
  · rw [textGroups] at hk hne
    have hk' : (BitVec.ofNat s.xw (s.k.toNat + 1)).toNat = s.k.toNat + 1 := toNat_ofNat_of_lt (by omega)
    refine ⟨hwf, hbelow, ⟨?_, hr⟩, hk'⟩
    change (BitVec.ofNat s.xw (s.k.toNat + 1)).toNat ≤ s.len.toNat / 4
    rw [hk']
    omega

theorem execDec_groupDone (hp : progress s .dec) (h : execDec s = .next t) : GroupDone .dec s t := by
  obtain ⟨hk, hmid, hle, hge⟩ := hp
  have hlen := s.len.isLt
  obtain ⟨h4, ⟨-, rfl⟩ | ⟨hne, hgroup⟩⟩ := execDec_eq_next h
  · cases hbt
  · obtain ⟨-, bs, hbs, hplace, hd, rfl⟩ := decGroupStep_eq_next hgroup
    obtain ⟨hwf', hbelow'⟩ := engineStores_wf_below hwf hbelow hd
    obtain ⟨hpos, hthree, hfull⟩ := decGroup_length hbs
    have hlast : s.k.toNat + 1 < textGroups s.len.toNat → bs.length = 3 := fun hlt =>
      hfull (hplace.resolve_left fun hl => Nat.ne_of_lt hlt (isLastGroup_iff.1 hl)).2
    have hres := hmid (lt_of_le_of_ne hk hne)
    simp only [textGroups] at hk hne hlast
    have hk' : (BitVec.ofNat s.xw (s.k.toNat + 1)).toNat = s.k.toNat + 1 := toNat_ofNat_of_lt (by omega)
    have hr' : (BitVec.ofNat s.xw (s.result.toNat + bs.length)).toNat = s.result.toNat + bs.length :=
      toNat_ofNat_of_lt (by omega)
    exact ⟨hwf', hbelow', progress_dec_of (n := s.len.toNat / 4) rfl hk' hr' (by omega), hk'⟩

/-- A step that stays in BUSY has done one group. -/
theorem exec_groupDone {i : Instr} (hp : progress s i) (h : exec i s = .next t) : GroupDone i s t := by
  cases i with
  | encsz =>
    obtain ⟨-, rfl⟩ := execEncsz_eq_next h
    cases hbt
  | enc => exact execEnc_groupDone hwf hbelow hbt hp h
  | decsz =>
    obtain ⟨-, rfl⟩ | ⟨-, rfl⟩ | ⟨-, -, -, ⟨-, rfl⟩ | ⟨-, rfl⟩⟩ := execDecsz_eq_next h
    all_goals cases hbt
  | val => exact execVal_groupDone hwf hbelow hbt hp h
  | dec => exact execDec_groupDone hwf hbelow hbt hp h

end GroupStep

/-! ### How each turn keeps the invariant -/

/-- Only a legal command makes the block BUSY. -/
theorem exists_decode_of_busy {s : State} {v : Word s.xw} (h : (issueCommand s v).status.state = .busy) :
    ∃ i, decode v = .instr i := by
  cases hd : decode v with
  | instr i => exact ⟨i, rfl⟩
  | reject r => exact nomatch h.symm.trans (congrArg Status.state (issueCommand_status_illegal s v hd))

section Keeps
variable {s : State} (hI : Inv s)
include hI

theorem Inv.finish_of_busy (hb : s.status.state = .busy) (r : Word s.xw) : Inv (finish { s with result := r }) where
  width := hI.width
  memWf := hI.memWf
  memBelow := hI.memBelow
  coherent := coherent_iff.2 (iff_of_false (not_not.2 (hI.err_of_busy hb)) nofun)
  report := hI.report
  errchar := hI.errchar
  errorResult := nofun
  idle := nofun
  busy := nofun
  window := nofun

theorem Inv.raiseFormatError (o : Offender) : Inv (raiseFormatError s o) where
  width := hI.width
  memWf := hI.memWf
  memBelow := hI.memBelow
  coherent := coherent_iff.2 (iff_of_true nofun rfl)
  report := fun h => absurd rfl (h o.code)
  errchar := by
    change (o.ch.setWidth s.xw).toNat < 256
    rw [BitVec.toNat_setWidth]
    exact lt_of_le_of_lt (Nat.mod_le _ _) o.ch.isLt
  errorResult := fun _ => rfl
  idle := nofun
  busy := nofun
  window := nofun

theorem Inv.resetBlock {m : Memory} (hwf : m.wf = true) (hbelow : m.below (2 ^ s.xw) = true)
    (ins : List (Move s.xw)) (c : Nat) : Inv (resetBlock { s with inputs := ins, mem := m, freeCount := c }) where
  width := hI.width
  memWf := hwf
  memBelow := hbelow
  coherent := rfl
  report := fun _ => ⟨rfl, rfl⟩
  errchar := by simp
  errorResult := fun _ => rfl
  idle := fun _ => ⟨rfl, rfl, rfl⟩
  busy := nofun
  window := nofun

theorem Inv.issueCommand (v : Word s.xw) : Inv (issueCommand s v) where
  width := hI.width
  memWf := hI.memWf
  memBelow := hI.memBelow
  coherent := by
    cases hd : decode v with
    | instr i => rw [issueCommand_status_legal s v hd]; rfl
    | reject r => rw [issueCommand_status_illegal s v hd]; rfl
  report := fun _ => ⟨rfl, rfl⟩
  errchar := by simp
  errorResult := fun _ => rfl
  idle := fun h => by
    obtain hbusy | herror := issueCommand_state s v
    · exact nomatch hbusy.symm.trans h
    · exact nomatch herror.symm.trans h
  busy := fun h => by
    obtain ⟨i, hd⟩ := exists_decode_of_busy h
    refine ⟨i, hd, ?_⟩
    cases i <;> simp [progress]
  window := fun h => by
    obtain ⟨i, hd⟩ := exists_decode_of_busy h
    rw [issueCommand_windows, hd]
    exact nofun

theorem Inv.operands (hb : s.status.state ≠ .busy) (ins : List (Move s.xw)) (a b c : Word s.xw) :
    Inv { s with inputs := ins, src := a, len := b, dst := c } where
  width := hI.width
  memWf := hI.memWf
  memBelow := hI.memBelow
  coherent := hI.coherent
  report := hI.report
  errchar := hI.errchar
  errorResult := hI.errorResult
  idle := hI.idle
  busy := fun h => absurd h hb
  window := fun h => absurd h hb

/-- The host's own accesses touch memory, and the windows only when the block is not BUSY. -/
theorem Inv.outside {m : Memory} (hwf : m.wf = true) (hbelow : m.below (2 ^ s.xw) = true) {ws : List Window}
    (hw : s.status.state = .busy → (ws = [] ↔ s.windows = [])) (ins : List (Move s.xw)) (own : List Region)
    (own' : Option (List Region)) (rs : List (Nat × Nat)) (obs : List (Observed s.xw)) (c : Nat) :
    Inv { s with
      inputs := ins, mem := m, owned := own, ownedNext := own', windows := ws, raced := rs, observed := obs
      freeCount := c } where
  width := hI.width
  memWf := hwf
  memBelow := hbelow
  coherent := hI.coherent
  report := hI.report
  errchar := hI.errchar
  errorResult := hI.errorResult
  idle := hI.idle
  busy := fun h => by
    obtain ⟨i, hd, hp⟩ := hI.busy h
    refine ⟨i, hd, ?_⟩
    cases i <;> exact hp
  window := fun h hnil => hI.window h ((hw h).1 hnil)

theorem Inv.withInputs (ins : List (Move s.xw)) : Inv { s with inputs := ins } :=
  hI.outside hI.memWf hI.memBelow (fun _ => Iff.rfl) ins s.owned s.ownedNext s.raced s.observed s.freeCount

theorem Inv.goesOn (hb : s.status.state = .busy) {i : Instr} (hd : decode s.cmd = .instr i) {m : Memory}
    {r k : Word s.xw} (hdone : GroupDone i s { s with mem := m, result := r, k := k }) :
    Inv { s with mem := m, result := r, k := k } where
  width := hI.width
  memWf := hdone.memWf
  memBelow := hdone.memBelow
  coherent := hI.coherent
  report := hI.report
  errchar := hI.errchar
  errorResult := fun h => nomatch hb.symm.trans h
  idle := fun h => nomatch hb.symm.trans h
  busy := fun _ => ⟨i, hd, hdone.progress⟩
  window := hI.window

/-- A step of the running operation keeps the invariant. -/
theorem Inv.exec (hb : s.status.state = .busy) {i : Instr} (hd : decode s.cmd = .instr i) {t : State}
    (h : exec i s = .next t) : Inv t := by
  have hp := hI.progress_of_decode hb hd
  cases exec_stepEnd h with
  | finishes r => exact hI.finish_of_busy hb r
  | reports _ o => exact hI.raiseFormatError o
  | goesOn m r k =>
    exact hI.goesOn hb hd (exec_groupDone (t := { s with mem := m, result := r, k := k }) hI.memWf hI.memBelow hb hp h)

end Keeps

theorem exec_xw {i : Instr} {s t : State} (h : exec i s = .next t) : t.xw = s.xw := by
  cases exec_stepEnd h <;> rfl

/-! ### The end of an operation -/

theorem exec_not_refused (i : Instr) (s : State) (r : Refusal) : exec i s ≠ .refused r := by
  cases i with
  | encsz =>
    change execEncsz s ≠ _
    unfold execEncsz
    split <;> nofun
  | enc =>
    change execEnc s ≠ _
    unfold execEnc encGroupStep
    dsimp only
    repeat' split
    all_goals nofun
  | decsz =>
    change execDecsz s ≠ _
    unfold execDecsz
    dsimp only
    repeat' split
    all_goals nofun
  | val =>
    change execVal s ≠ _
    unfold execVal
    dsimp only
    repeat' split
    all_goals nofun
  | dec =>
    change execDec s ≠ _
    unfold execDec decGroupStep
    repeat' split
    all_goals nofun

/-- An operation left to the engine has left BUSY once the groups that remain and the finishing step are done. -/
theorem leftBusy_of_remaining {i : Instr} (d : Nat) {s : State} (hI : Inv s) (hb : s.status.state = .busy)
    (hd : decode s.cmd = .instr i) (hin : s.inputs = []) (hrem : groupsOf s.len.toNat i - s.k.toNat < d) :
    ∃ n, n ≤ d ∧ leftBusy (runSteps n s) := by
  induction d generalizing s with
  | zero => exact absurd hrem (Nat.not_lt_zero _)
  | succ d ih =>
    have hp := hI.progress_of_decode hb hd
    have hrun (n : Nat) := step_of_busy hb hd hin ▸ runSteps_succ n s
    cases hexec : exec i s with
    | refused r => exact absurd hexec (exec_not_refused i s r)
    | fault r =>
      refine ⟨1, by omega, ?_⟩
      rw [hrun, hexec]
      trivial
    | next t =>
      have hI' := hI.exec hb hd hexec
      cases exec_stepEnd hexec with
      | finishes r =>
        refine ⟨1, by omega, ?_⟩
        rw [hrun, hexec]
        exact .inl rfl
      | reports _ o =>
        refine ⟨1, by omega, ?_⟩
        rw [hrun, hexec]
        exact .inr rfl
      | goesOn m r k =>
        have hdone := exec_groupDone (t := { s with mem := m, result := r, k := k }) hI.memWf hI.memBelow hb hp hexec
        have hle : k.toNat ≤ groupsOf s.len.toNat i := k_le_of_progress hdone.progress
        have hk : k.toNat = s.k.toNat + 1 := hdone.k
        have hrem' : groupsOf s.len.toNat i - k.toNat < d := by omega
        obtain ⟨n, hn, hleft⟩ := ih hI' hb hd hin hrem'
        refine ⟨n + 1, by omega, ?_⟩
        rw [hrun, hexec]
        exact hleft

/-! ### The obligations -/

/-- Settles O51, by the turn the step is. -/
theorem stepKeepsInvariant : Obligations.StepKeepsInvariant := by
  intro s t hI h
  cases step_turn h with
  | engine ins _ hb hop hexec =>
    exact (hI.withInputs ins).exec hb (decode_of_runningOp hI hb hop).1 hexec
  | command rest v => exact (hI.withInputs rest).issueCommand v
  | operands rest a b c hb => exact hI.operands hb rest a b c
  | outside ins m own own' ws rs obs c hm hw =>
    obtain rfl | ⟨a, x, rfl⟩ := hm
    · exact hI.outside hI.memWf hI.memBelow hw ins own own' rs obs c
    · exact hI.outside (Memory.wf_write _ _ hI.memWf) (Memory.below_write hI.memBelow (.inl a.isLt)) hw ins own own' rs
        obs c
  | reset ins m c _ hm =>
    obtain rfl | ⟨i, t', dest, hb, hop, hexec, rfl⟩ := hm
    · exact hI.resetBlock hI.memWf hI.memBelow ins c
    · have hI' := (hI.withInputs ins).exec hb (decode_of_runningOp hI hb hop).1 hexec
      have hbelow : t'.mem.below (2 ^ s.xw) = true := exec_xw hexec ▸ hI'.memBelow
      obtain ⟨hwf, hbelow⟩ := landSome_wf_below s.freeCount dest hI.memWf hI.memBelow hbelow
      exact hI.resetBlock hwf hbelow ins c

/-- Settles O50. -/
theorem invariantAtReset : Obligations.InvariantAtReset where
  width := by decide
  memWf := rfl
  memBelow := rfl
  coherent := rfl
  report := fun _ => ⟨rfl, rfl⟩
  errchar := by decide
  errorResult := fun _ => rfl
  idle := fun _ => ⟨rfl, rfl, rfl⟩
  busy := nofun
  window := nofun

/-- Settles O52: the finishing step finds RESULT where the progress of the operation says. -/
theorem resultWhenDone : Obligations.ResultWhenDone := by
  intro i s t hI hb hd h hdone
  have hp := hI.progress_of_decode hb hd
  have hlen := s.len.isLt
  cases i with
  | encsz =>
    obtain ⟨hfit, rfl⟩ := execEncsz_eq_next h
    exact toNat_ofNat_of_lt hfit
  | enc =>
    obtain ⟨-, ⟨hk, rfl⟩ | ⟨-, -, -, rfl⟩⟩ := execEnc_eq_next h
    · obtain ⟨-, hr⟩ := hp
      rw [hk, Nat.mul_comm] at hr
      exact hr
    · exact nomatch hb.symm.trans hdone
  | decsz =>
    obtain ⟨-, rfl⟩ | ⟨h0, rfl⟩ | ⟨h4, h0, -, ⟨-, rfl⟩ | ⟨-, rfl⟩⟩ := execDecsz_eq_next h
    · cases hdone
    · exact ⟨by omega, fun _ => rfl, fun hne => absurd h0 hne⟩
    · cases hdone
    · have hfits : decSize s.len.toNat (trailPad (sourceGroup s (s.len.toNat - 4))) < 2 ^ s.xw := by
        rw [decSize]
        omega
      exact ⟨h4, fun heq => absurd heq h0, fun _ => toNat_ofNat_of_lt hfits⟩
  | val =>
    obtain ⟨-, rfl⟩ | ⟨-, -, rfl⟩ | ⟨-, -, -, ⟨o, -, rfl⟩ | ⟨-, rfl⟩⟩ := execVal_eq_next h
    · cases hdone
    · exact hp.2
    · cases hdone
    · exact nomatch hb.symm.trans hdone
  | dec =>
    obtain ⟨-, ⟨hk, rfl⟩ | ⟨-, hgroup⟩⟩ := execDec_eq_next h
    · obtain ⟨-, -, hle, hge⟩ := hp
      rw [hk, textGroups] at hle hge
      change s.result.toNat ≤ s.len.toNat / 4 * 3 - 0 ∧ s.len.toNat / 4 * 3 - 2 ≤ s.result.toNat
      omega
    · obtain ⟨-, bs, -, -, -, rfl⟩ := decGroupStep_eq_next hgroup
      exact nomatch hb.symm.trans hdone

/-- Settles O58: at most all groups remain, and the finishing step. -/
theorem operationsEnd : Obligations.OperationsEnd := by
  intro s i hI hb hd hin
  refine leftBusy_of_remaining _ hI hb hd hin ?_
  rw [stepBound_eq]
  omega

end Sys2Proof.Machine
end

