-- ==== Sys2Proof/Proofs/Runs.lean ====
section
/-! PROOFS. Whole runs of ENC and DEC (40_encoder.md section 4, 41_decoder.md section 5): the state after `k` groups,
the step from one such state to the next, and the obligations about runs and about the range a DEC writes. -/

namespace Sys2Proof.Machine

/-! ### Runs of known steps -/

theorem runSteps_succ_of_next {s t : State} (h : step s = .next t) (n : Nat) : runSteps (n + 1) s = runSteps n t := by
  rw [runSteps_succ, h]

/-- A run along the states `f 0`, `f 1`, ..., `f n`. -/
theorem runSteps_along {f : Nat → State} {n : Nat} (h : ∀ k, k < n → step (f k) = .next (f (k + 1))) (m : Nat) :
    runSteps (n + m) (f 0) = runSteps m (f n) := by
  induction n generalizing f with
  | zero => rw [Nat.zero_add]
  | succ n ih =>
    rw [Nat.add_right_comm, runSteps_succ_of_next (h 0 (Nat.succ_pos n))]
    exact ih (f := fun k => f (k + 1)) fun k hk => h (k + 1) (by omega)

/-- A run along known states whose last step ends in `t`. -/
theorem runSteps_along_to {f : Nat → State} {n : Nat} {t : State} (h : ∀ k, k < n → step (f k) = .next (f (k + 1)))
    (hend : step (f n) = .next t) : runSteps (n + 1) (f 0) = .next t := by
  rw [runSteps_along h, runSteps_succ_of_next hend, runSteps_zero]

/-! ### The state after some groups -/

/-- The fields a command issue sets, in a state just issued. -/
theorem started_eq {i : Instr} {s : State} (h : started i s) :
    s = { s with
      status := ⟨.busy, .none⟩, k := 0, result := 0, errpos := 0, errchar := 0, inputs := [], raced := []
      ownedNext := none } := by
  cases s
  simp_all [started]

/-- The state when `k` groups are done and the bytes `bs` have been written. -/
def written (s : State) (k : Nat) (bs : List Byte) : State :=
  { s with
    mem := writeBytes s.mem s.dst.toNat bs
    k := BitVec.ofNat s.xw k
    result := BitVec.ofNat s.xw bs.length }

theorem written_zero {i : Instr} {s : State} (h : started i s) : written s 0 [] = s := by
  rw [started_eq h]
  rfl

/-- The operation just issued runs on while only its own writes have happened. -/
theorem step_written {i : Instr} {s : State} (h : started i s) (k : Nat) (bs : List Byte) :
    step (written s k bs) = exec i (written s k bs) := by
  obtain ⟨hd, hstatus, -, -, -, -, hin, -⟩ := h
  exact step_of_busy (s := written s k bs) (congrArg Status.state hstatus) hd hin

theorem written_k (s : State) {k : Nat} (hk : k < 2 ^ s.xw) (bs : List Byte) : (written s k bs).k.toNat = k :=
  toNat_ofNat_of_lt hk

section Written
variable {s : State} (hraced : s.raced = [])
include hraced

/-- The group that follows: its bytes land behind those already written. -/
theorem advance_written (k : Nat) (bs cs : List Byte) (hk : k < 2 ^ s.xw) :
    advance { written s k bs with
        mem := engineStores (written s k bs) ((written s k bs).dst.toNat + bs.length) cs } cs.length =
      written s (k + 1) (bs ++ cs) := by
  have hmem : engineStores (written s k bs) (s.dst.toNat + bs.length) cs = writeBytes s.mem s.dst.toNat (bs ++ cs) := by
    rw [writeBytes_append, engineStores, landedBytes_of_raced_nil (s := written s k bs) hraced]
    rfl
  have hresult : BitVec.ofNat s.xw ((BitVec.ofNat s.xw bs.length).toNat + cs.length) =
      BitVec.ofNat s.xw (bs ++ cs).length := by
    rw [List.length_append]
    apply BitVec.eq_of_toNat_eq
    simp
  have hcount : BitVec.ofNat s.xw ((BitVec.ofNat s.xw k).toNat + 1) = BitVec.ofNat s.xw (k + 1) := by
    rw [toNat_ofNat_of_lt hk]
  rw [written.eq_1 s (k + 1), ← hmem, ← hresult, ← hcount]
  rfl

/-- A source byte the writes have not reached is read as it was. -/
theorem sourceByte_written (hwf : s.mem.wf = true) {k i : Nat} {bs : List Byte}
    (h : ∀ j, j < bs.length → s.dst.toNat + j ≠ s.src.toNat + i) :
    sourceByte (written s k bs) i = s.mem.read (s.src.toNat + i) := by
  rw [sourceByte, engineSees_of_no_race (raceAt_of_raced_nil (s := written s k bs) hraced _)]
  refine (read_writeBytes bs s.dst.toNat (s.src.toNat + i) hwf).trans (if_neg ?_)
  rintro ⟨hle, hlt⟩
  exact h (s.src.toNat + i - s.dst.toNat) (by omega) (by omega)

end Written

/-- What the end of a run leaves: the bytes at the destination, everything else as it was. -/
theorem bytesAt_writeBytes {m : Memory} (hwf : m.wf = true) (a : Nat) (bs : List Byte) :
    bytesAt (writeBytes m a bs) a bs.length = bs := by
  apply List.ext_getElem
  · rw [bytesAt_length]
  · intro i _ hi
    have hread := read_writeBytes bs a (a + i) hwf
    rw [if_pos ⟨Nat.le_add_right a i, by omega⟩, Nat.add_sub_cancel_left] at hread
    simp [bytesAt, hread, List.getD_eq_getElem?_getD, hi]

/-! ### The source buffer -/

theorem sourceBytes_length (s : State) : (sourceBytes s).length = s.len.toNat := bytesAt_length _ _ _

theorem sourceBytes_of_empty {s : State} (h : s.len.toNat = 0) : sourceBytes s = [] :=
  List.length_eq_zero_iff.1 ((sourceBytes_length s).trans h)

theorem len_of_valid {s : State} (hv : validText (sourceBytes s) = true) : s.len.toNat % 4 = 0 :=
  sourceBytes_length s ▸ (validText_iff.1 hv).1

/-! ### The groups of ENC -/

/-- Group `k` of a byte list, encoded (R104). -/
def encGroupAt (b : List Byte) (k : Nat) : TextGroup :=
  encGroup (groupBytes b.length k) (b.getD (3 * k) 0) (b.getD (3 * k + 1) 0) (b.getD (3 * k + 2) 0)

/-- The text of the first `k` groups of a byte list. -/
def encFirst (b : List Byte) (k : Nat) : List Byte := (List.range k).flatMap fun j => (encGroupAt b j).toList

theorem encText_eq_encFirst (b : List Byte) : encText b = encFirst b (binGroups b.length) := rfl

theorem encFirst_succ (b : List Byte) (k : Nat) : encFirst b (k + 1) = encFirst b k ++ (encGroupAt b k).toList := by
  rw [encFirst, List.range_succ, List.flatMap_append, List.flatMap_singleton]
  rfl

theorem encFirst_length (b : List Byte) (k : Nat) : (encFirst b k).length = 4 * k := by
  induction k with
  | zero => rfl
  | succ k ih => rw [encFirst_succ, List.length_append, ih, length_toList]; rfl

/-- EncGroup looks at the bytes its group has. -/
theorem encGroup_congr {m : Nat} {b0 b1 b2 c0 c1 c2 : Byte} (h0 : b0 = c0) (h1 : 2 ≤ m → b1 = c1)
    (h2 : m = 3 → b2 = c2) : encGroup m b0 b1 b2 = encGroup m c0 c1 c2 := by
  rw [← encGroup_absent m b0 b1 b2, ← encGroup_absent m c0 c1 c2, h0]
  congr 1
  · exact ite_congr rfl h1 fun _ => rfl
  · exact ite_congr rfl h2 fun _ => rfl

section EncRun
variable {s : State} (hst : started .enc s) (hwf : s.mem.wf = true) (hfit : 4 * binGroups s.len.toNat < 2 ^ s.xw)
  (hsrc : ∀ i, i < s.len.toNat → SrcOk s i) (hdst : ∀ j, j < 4 * binGroups s.len.toNat → DstOk s j)
  (hlive : noLiveOverlap s (binGroups s.len.toNat) 3 4)

/-- ENC after `k` groups. -/
abbrev encodedTo (s : State) (k : Nat) : State := written s k (encFirst (sourceBytes s) k)

include hst hwf hlive in
/-- Group `k` still has its source bytes when its turn comes. -/
theorem encGroupOf_encodedTo {k : Nat} (hk : k < binGroups s.len.toNat) (hlt : k < 2 ^ s.xw) :
    encGroupOf (encodedTo s k) = encGroupAt (sourceBytes s) k := by
  obtain ⟨-, -, -, -, -, -, -, hraced, -⟩ := hst
  have hcount : (encodedTo s k).k.toNat = k := written_k s hlt _
  have hlen := sourceBytes_length s
  have hbyte (i : Nat) (hge : 3 * k ≤ i) (hi : i < s.len.toNat) :
      sourceByte (encodedTo s k) i = (sourceBytes s).getD i 0 := by
    rw [sourceBytes, bytesAt_getD _ _ hi]
    refine sourceByte_written hraced hwf fun j hj => ?_
    rw [encFirst_length] at hj
    have hno := hlive (j / 4) (by omega) (j % 4) (by omega) i hi (by omega)
    rwa [Nat.div_add_mod] at hno
  rw [encGroupOf, hcount, encGroupAt, hlen]
  simp only [binGroups] at hk
  refine encGroup_congr (hbyte _ (by omega) (by omega)) (fun h2 => hbyte _ (by omega) ?_) fun h3 =>
    hbyte _ (by omega) ?_
  · change 2 ≤ groupBytes s.len.toNat k at h2
    rw [groupBytes] at h2
    omega
  · change groupBytes s.len.toNat k = 3 at h3
    rw [groupBytes] at h3
    omega

include hst hwf hfit hsrc hdst hlive in
/-- From group to group. -/
theorem step_encodedTo {k : Nat} (hk : k < binGroups s.len.toNat) :
    step (encodedTo s k) = .next (encodedTo s (k + 1)) := by
  have hlt : k < 2 ^ s.xw := by omega
  have hgroup := encGroupOf_encodedTo hst hwf hlive hk hlt
  have hcount : (encodedTo s k).k.toNat = k := written_k s hlt _
  have hm : 1 ≤ groupBytes s.len.toNat k ∧ 3 * k + groupBytes s.len.toNat k ≤ s.len.toNat := by
    rw [binGroups] at hk
    rw [groupBytes]
    omega
  have hstep := encGroupStep_ok (s := encodedTo s k) (hcount.symm ▸ hm.1)
    (fun j hj => hsrc _ (by rw [hcount] at hj ⊢; exact lt_of_lt_of_le (Nat.add_lt_add_left hj _) hm.2))
    (fun j hj => hdst _ (by rw [encElement, hcount]; omega))
  rw [encElement, hcount, hgroup, ← encFirst_length (sourceBytes s) k] at hstep
  obtain ⟨-, -, -, -, -, -, -, hraced, -⟩ := id hst
  calc step (encodedTo s k)
    _ = execEnc (encodedTo s k) := step_written hst k _
    _ = encGroupStep (encodedTo s k) := execEnc_at_group hfit (hcount.symm ▸ Nat.ne_of_lt hk)
    _ = .next (written s (k + 1) (encFirst (sourceBytes s) k ++ (encGroupAt (sourceBytes s) k).toList)) :=
      hstep.trans (congrArg _ (advance_written hraced k _ _ hlt))
    _ = .next (encodedTo s (k + 1)) := by rw [encodedTo, encFirst_succ]

end EncRun

/-- Settles O53: from group to group, then the finishing step. -/
theorem encodeRun : Obligations.EncodeRun := by
  intro s hst hwf hfit hsrc hdst hlive
  have hlen := sourceBytes_length s
  have htext : encText (sourceBytes s) = encFirst (sourceBytes s) (binGroups s.len.toNat) := by
    rw [encText_eq_encFirst, hlen]
  have hsize := encFirst_length (sourceBytes s) (binGroups s.len.toNat)
  have hfinish : step (encodedTo s (binGroups s.len.toNat)) = .next (finish (encodedTo s (binGroups s.len.toNat))) := by
    exact (step_written hst _ _).trans (execEnc_at_end hfit (written_k s (by omega) _))
  have hrun := runSteps_along_to (f := encodedTo s) (fun _ hk => step_encodedTo hst hwf hfit hsrc hdst hlive hk) hfinish
  have hzero : encodedTo s 0 = s := written_zero hst
  obtain ⟨-, hstatus, -⟩ := hst
  refine ⟨writeBytes s.mem s.dst.toNat (encText (sourceBytes s)), ?_, ?_, fun a ha => ?_⟩
  · rw [hzero] at hrun
    rw [hrun, htext, ← hsize, hsize, finish, encodedTo, written, hsize, hstatus]
  · rw [← hsize, ← htext]
    exact bytesAt_writeBytes hwf _ _
  · refine read_writeBytes_of_ne hwf fun j hj => ha j ?_
    rwa [htext, hsize] at hj

/-! ### The groups of DEC -/

/-- The bytes of group `k` of a string; meant for a valid string. -/
def decGroupAt (t : List Byte) (k : Nat) : List Byte := (decGroup (groupAt t k)).getD []

/-- The bytes of the first `k` groups of a string. -/
def decFirst (t : List Byte) (k : Nat) : List Byte := (List.range k).flatMap (decGroupAt t)

theorem decText_eq_decFirst (t : List Byte) : decText t = decFirst t (textGroups t.length) := rfl

theorem decFirst_succ (t : List Byte) (k : Nat) : decFirst t (k + 1) = decFirst t k ++ decGroupAt t k := by
  rw [decFirst, List.range_succ, List.flatMap_append, List.flatMap_singleton]
  rfl

theorem decFirst_length_mono (t : List Byte) : Monotone fun k => (decFirst t k).length :=
  monotone_nat_of_le_succ fun k => by
    simp only [decFirst_succ, List.length_append]
    exact Nat.le_add_right _ _

section ValidGroups
variable {t : List Byte} (hv : validText t = true) {k : Nat}
include hv

/-- A group of a valid string has bytes, and pads only in the last place. -/
theorem decGroup_groupAt (hk : k < textGroups t.length) :
    decGroup (groupAt t k) = some (decGroupAt t k) ∧
      (k + 1 = textGroups t.length ∨ (groupAt t k).full = true) := by
  have hshape := chkGroup_eq_none_iff_shape.1 ((validText_iff.1 hv).2 k hk)
  constructor
  · cases hdec : decGroup (groupAt t k) with
    | some bs => rw [decGroupAt, hdec]; rfl
    | none => exact absurd (hshape.imp_right And.right) (decGroup_eq_none_iff.1 hdec)
  · exact hshape.symm.imp_left fun h => isLastGroup_iff.1 h.1

/-- The groups before the last have three bytes each. -/
theorem decFirst_length (hk : k < textGroups t.length) : (decFirst t k).length = 3 * k := by
  induction k with
  | zero => rfl
  | succ k ih =>
    obtain ⟨hdec, hplace⟩ := decGroup_groupAt hv (Nat.lt_of_succ_lt hk)
    obtain ⟨-, -, hthree⟩ := decGroup_length hdec
    have hfull : (groupAt t k).full = true := hplace.resolve_left (Nat.ne_of_lt hk)
    rw [decFirst_succ, List.length_append, ih (Nat.lt_of_succ_lt hk), hthree (isPad_eq_false_of_full hfull).2]
    rfl

end ValidGroups

/-- A text group of the source buffer, as memory holds it. -/
theorem groupInMemory_eq_groupAt (s : State) {k : Nat} (hk : 4 * k + 4 ≤ s.len.toNat) :
    groupInMemory s.mem (s.src.toNat + 4 * k) = groupAt (sourceBytes s) k := by
  simp only [groupInMemory, groupAt, sourceBytes, Nat.add_assoc,
    bytesAt_getD s.mem s.src.toNat (show 4 * k < s.len.toNat by omega),
    bytesAt_getD s.mem s.src.toNat (show 4 * k + 1 < s.len.toNat by omega),
    bytesAt_getD s.mem s.src.toNat (show 4 * k + 2 < s.len.toNat by omega),
    bytesAt_getD s.mem s.src.toNat (show 4 * k + 3 < s.len.toNat by omega)]

section DecRun
variable {s : State} (hst : started .dec s) (hwf : s.mem.wf = true) (hv : validText (sourceBytes s) = true)
  (hsrc : ∀ i, i < s.len.toNat → SrcOk s i) (hdst : ∀ j, j < (decText (sourceBytes s)).length → DstOk s j)
  (hlive : noLiveOverlap s (textGroups s.len.toNat) 4 3)

/-- DEC after `k` groups. -/
abbrev decodedTo (s : State) (k : Nat) : State := written s k (decFirst (sourceBytes s) k)

include hst hwf hv hlive in
/-- Group `k` still has its characters when its turn comes. -/
theorem sourceGroup_decodedTo {k : Nat} (hk : k < textGroups s.len.toNat) :
    sourceGroup (decodedTo s k) (4 * k) = groupAt (sourceBytes s) k := by
  obtain ⟨-, -, -, -, -, -, -, hraced, -⟩ := hst
  have hin : 4 * k + 4 ≤ s.len.toNat := by
    rw [textGroups] at hk
    omega
  have hchar (i : Nat) (hge : 4 * k ≤ i) (hi : i < s.len.toNat) :
      sourceByte (decodedTo s k) i = s.mem.read (s.src.toNat + i) := by
    refine sourceByte_written hraced hwf fun j hj => ?_
    rw [decFirst_length hv (sourceBytes_length s ▸ hk)] at hj
    have hno := hlive (j / 3) (by omega) (j % 3) (by omega) i hi (by omega)
    rwa [Nat.div_add_mod] at hno
  rw [← groupInMemory_eq_groupAt s hin]
  simp only [sourceGroup, groupInMemory, hchar (4 * k) (by omega) (by omega),
    hchar (4 * k + 1) (by omega) (by omega), hchar (4 * k + 2) (by omega) (by omega),
    hchar (4 * k + 3) (by omega) (by omega), Nat.add_assoc]

include hst hwf hv hsrc hdst hlive in
/-- From group to group. -/
theorem step_decodedTo {k : Nat} (hk : k < textGroups s.len.toNat) :
    step (decodedTo s k) = .next (decodedTo s (k + 1)) := by
  have hlen := s.len.isLt
  have hkq : 4 * k + 4 ≤ s.len.toNat := by
    rw [textGroups] at hk
    omega
  have hkt : k < textGroups (sourceBytes s).length := sourceBytes_length s ▸ hk
  have h4 := len_of_valid hv
  have hcount : (decodedTo s k).k.toNat = k := written_k s (by omega) _
  have hgroup := sourceGroup_decodedTo hst hwf hv hlive hk
  have hdone := decFirst_length hv hkt
  have hresult : decElement (decodedTo s k) = (decFirst (sourceBytes s) k).length :=
    toNat_ofNat_of_lt (show _ < 2 ^ s.xw by omega)
  have hsize : (decFirst (sourceBytes s) k).length + (decGroupAt (sourceBytes s) k).length ≤
      (decText (sourceBytes s)).length := by
    rw [← List.length_append, ← decFirst_succ, decText_eq_decFirst]
    exact decFirst_length_mono _ hkt
  obtain ⟨hdec, hplace⟩ := decGroup_groupAt hv hkt
  have hlast : isLastGroup s.len.toNat k = true ∨
      (isPad (groupAt (sourceBytes s) k).c2 = false ∧ isPad (groupAt (sourceBytes s) k).c3 = false) := by
    rw [sourceBytes_length] at hplace
    exact hplace.imp isLastGroup_iff.2 isPad_eq_false_of_full
  have hstep := decGroupStep_ok (s := decodedTo s k) (bs := decGroupAt (sourceBytes s) k)
    (fun j hj => hsrc _ (by rw [hcount]; omega)) (by rw [hcount, hgroup, hdec]) (by rw [hcount, hgroup]; exact hlast)
    (fun j hj => hdst _ (by rw [hresult]; omega))
  rw [hresult] at hstep
  obtain ⟨-, -, -, -, -, -, -, hraced, -⟩ := id hst
  calc step (decodedTo s k)
    _ = execDec (decodedTo s k) := step_written hst k _
    _ = decGroupStep (decodedTo s k) := execDec_at_group h4 (hcount.symm ▸ Nat.ne_of_lt hk)
    _ = .next (written s (k + 1) (decFirst (sourceBytes s) k ++ decGroupAt (sourceBytes s) k)) :=
      hstep.trans (congrArg _ (advance_written hraced k _ _ (by omega)))
    _ = .next (decodedTo s (k + 1)) := by rw [decodedTo, decFirst_succ]

end DecRun

/-- Settles O55: from group to group, then the finishing step. -/
theorem decodeRun : Obligations.DecodeRun := by
  intro s hst hwf hv hsrc hdst hlive
  have htext : decText (sourceBytes s) = decFirst (sourceBytes s) (textGroups s.len.toNat) := by
    rw [decText_eq_decFirst, sourceBytes_length]
  have hlen := s.len.isLt
  have h4 := len_of_valid hv
  have hq : textGroups s.len.toNat < 2 ^ s.xw := lt_of_le_of_lt (Nat.div_le_self _ 4) hlen
  have hfinish : step (decodedTo s (textGroups s.len.toNat)) = .next (finish (decodedTo s (textGroups s.len.toNat))) :=
    (step_written hst _ _).trans (execDec_at_end h4 (written_k s hq _))
  have hrun := runSteps_along_to (f := decodedTo s)
    (fun _ hk => step_decodedTo hst hwf hv hsrc hdst hlive hk) hfinish
  have hzero : decodedTo s 0 = s := written_zero hst
  obtain ⟨-, hstatus, -⟩ := hst
  refine ⟨writeBytes s.mem s.dst.toNat (decText (sourceBytes s)), ?_, bytesAt_writeBytes hwf _ _,
    fun a ha => read_writeBytes_of_ne hwf ha⟩
  rw [hzero] at hrun
  rw [hrun, htext, finish, decodedTo, written, hstatus]

/-! ### The range a DEC writes -/

theorem trailPad_fullGroup (v0 v1 v2 v3 : Sextet) : trailPad (fullGroup v0 v1 v2 v3) = 0 := by
  simp [trailPad, fullGroup]

theorem trailPad_pad1Group (v0 v1 v2 : Sextet) : trailPad (pad1Group v0 v1 v2) = 1 := by
  simp [trailPad, pad1Group]

theorem trailPad_pad2Group (v0 v1 : Sextet) : trailPad (pad2Group v0 v1) = 2 := by
  simp [trailPad, pad2Group]

/-- The pads that end a valid string are those that end its last group. -/
theorem trailPad_last_group {t : List Byte} (hv : validText t = true) (hne : t ≠ []) :
    trailPad (groupAt t (textGroups t.length - 1)) = trailingPads t := by
  induction t, hv using validText_induction with
  | nil => exact absurd rfl hne
  | pad1 v0 v1 v2 => rw [trailingPads_pad1Group, length_toList]; exact trailPad_pad1Group v0 v1 v2
  | pad2 v0 v1 => rw [trailingPads_pad2Group, length_toList]; exact trailPad_pad2Group v0 v1
  | full v0 v1 v2 v3 t hv ih =>
    rw [trailingPads_fullGroup_append, textGroups_append, Nat.add_sub_cancel]
    by_cases ht : t = []
    · subst ht
      exact trailPad_fullGroup v0 v1 v2 v3
    · have hpos : 1 ≤ textGroups t.length := by
        have h4 := (validText_iff.1 hv).1
        have hlen := List.length_pos_iff.2 ht
        rw [textGroups]
        omega
      rw [← ih ht]
      conv_lhs => rw [show textGroups t.length = textGroups t.length - 1 + 1 by omega, groupAt_append_succ]

/-- DecSize of a valid string. -/
theorem decSize_trailingPads {t : List Byte} (hv : validText t = true) :
    decSize t.length (trailingPads t) = (decText t).length := by
  obtain ⟨hlen, -⟩ := decText_length_add_trailingPads hv
  rw [decSize]
  omega

section LastGroup
variable {s : State} (hv : validText (sourceBytes s) = true) (h0 : s.len.toNat ≠ 0)
include hv h0

/-- The last group of a valid source, by its place in memory. -/
theorem trailPad_lastGroupIn : trailPad (lastGroupIn s s.mem) = trailingPads (sourceBytes s) := by
  have hlen := sourceBytes_length s
  have h4 := len_of_valid hv
  have hne : sourceBytes s ≠ [] := fun h => h0 (by rw [← hlen, h]; rfl)
  have hplace : s.len.toNat - 4 = 4 * (textGroups s.len.toNat - 1) := by
    rw [textGroups]
    omega
  rw [← trailPad_last_group hv hne, hlen, lastGroupIn, hplace, groupInMemory_eq_groupAt]
  omega

/-- DecReach counts the pads of a valid string in full. -/
theorem decReach_of_valid : decReach s.len.toNat (lastGroupIn s s.mem) = (decText (sourceBytes s)).length := by
  have h4 := len_of_valid hv
  obtain ⟨-, htwo⟩ := decText_length_add_trailingPads hv
  rw [decReach, if_pos h4, trailPad_lastGroupIn hv h0, Nat.min_eq_right (by omega),
    ← decSize_trailingPads hv, sourceBytes_length]

end LastGroup

/-- An empty string has no bytes, whatever stands behind it. -/
theorem decReach_zero (g : TextGroup) : decReach 0 g = 0 := by simp [decReach, decSize]

/-- Under the overlap premise DEC meets the last group as it was. -/
theorem lastGroupIn_memoryAfterGroups {s : State} (hwf : s.mem.wf = true) (h4 : s.len.toNat % 4 = 0)
    (h0 : s.len.toNat ≠ 0) (hlive : noLiveOverlap s (textGroups s.len.toNat) 4 3) :
    lastGroupIn s (memoryAfterGroups s (textGroups s.len.toNat - 1)) = lastGroupIn s s.mem := by
  have hread (i : Nat) (hge : s.len.toNat - 4 ≤ i) (hi : i < s.len.toNat) :=
    memoryAfterGroups_read hwf hlive (Nat.sub_le (textGroups s.len.toNat) 1)
      (show 4 * (textGroups s.len.toNat - 1) ≤ i by rw [textGroups]; omega) hi
  simp only [lastGroupIn, groupInMemory, Nat.add_assoc, hread (s.len.toNat - 4) (by omega) (by omega),
    hread (s.len.toNat - 4 + 1) (by omega) (by omega), hread (s.len.toNat - 4 + 2) (by omega) (by omega),
    hread (s.len.toNat - 4 + 3) (by omega) (by omega)]

/-- Without a race the last group is read as memory holds it. -/
theorem sourceGroup_of_raced_nil {s : State} (h : s.raced = []) (i : Nat) :
    sourceGroup s i = groupInMemory s.mem (s.src.toNat + i) := by
  simp only [sourceGroup, groupInMemory, sourceByte, engineSees_of_no_race (raceAt_of_raced_nil h _), Nat.add_assoc]

/-- Settles O56: DecSize counts the pads of the last group, which are those of the string. -/
theorem decodedSizeIsExact : Obligations.DecodedSizeIsExact := by
  refine ⟨fun s hst hv hsrc => ?decsz, fun s hwf hv => ⟨rfl, ?atLeast, fun hlive => ?exactly⟩⟩
  case decsz =>
    have h4 := len_of_valid hv
    obtain ⟨-, htwo⟩ := decText_length_add_trailingPads hv
    obtain ⟨hd, hstatus, -, -, -, -, hin, hraced, -⟩ := hst
    refine (step_of_busy (congrArg Status.state hstatus) hd hin).trans ?_
    by_cases h0 : s.len.toNat = 0
    · have hnil := sourceBytes_of_empty h0
      refine (execDecsz_of_empty h0).trans ?_
      rw [hnil, finish, hstatus]
      rfl
    · have hpads : trailPad (sourceGroup s (s.len.toNat - 4)) = trailingPads (sourceBytes s) := by
        rw [sourceGroup_of_raced_nil hraced]
        exact trailPad_lastGroupIn hv h0
      refine (execDecsz_of_last_group h4 h0 fun j hj => hsrc _ (by omega)).trans ?_
      rw [hpads, if_neg (by omega), ← decSize_trailingPads hv, sourceBytes_length, finish, hstatus]
  case atLeast =>
    by_cases h0 : s.len.toNat = 0
    · have hnil := sourceBytes_of_empty h0
      rw [hnil]
      exact Nat.zero_le _
    · exact decReach_of_valid hv h0 ▸ Nat.le_max_left _ _
  case exactly =>
    by_cases h0 : s.len.toNat = 0
    · have hnil := sourceBytes_of_empty h0
      simp only [destRange, decDestSize, h0, decReach_zero, hnil]
      rfl
    · have h4 := len_of_valid hv
      simp only [destRange, decDestSize, lastGroupIn_memoryAfterGroups hwf h4 h0 hlive, Nat.max_self,
        decReach_of_valid hv h0]

/-- Settles O57: group `k` writes up to `DST + 3*k + 2`, and later groups read from `SRC + 4*k + 4`. -/
theorem inPlaceDecodeMeetsThePremise : Obligations.InPlaceDecodeMeetsThePremise := by
  intro s h k _ j hj i _ hi
  omega

end Sys2Proof.Machine
end

