-- ==== Sys2Proof/Proofs/Validation.lean ====
section
/-! PROOFS. Whole runs of VAL (41_decoder.md section 3): the first offender of a string, the states a run passes, what a
run leaves alone, and the obligations. -/

namespace Sys2Proof.Machine

/-! ### The first offender of a string -/

/-- A valid string has no offender. -/
theorem firstOffender_eq_none_iff {t : List Byte} : firstOffender t = none ↔ validText t = true := by
  rw [validText_iff, firstOffender]
  split
  case isTrue h => exact iff_of_false nofun fun hv => h hv.1
  case isFalse h =>
    simp only [List.findSome?_eq_none_iff, List.mem_range, Option.map_eq_none_iff]
    exact (and_iff_right (not_not.1 h)).symm

/-- An offender of a string of whole groups is the one of the first group that has one. -/
theorem exists_first_offender {t : List Byte} (h4 : t.length % 4 = 0) (hv : validText t = false) :
    ∃ k o, k < textGroups t.length ∧ chkGroup (isLastGroup t.length k) (groupAt t k) = some o ∧
      (∀ j, j < k → chkGroup (isLastGroup t.length j) (groupAt t j) = none) ∧
      firstOffender t = some { o with pos := 4 * k + o.pos } := by
  obtain ⟨o', ho'⟩ := Option.ne_none_iff_exists'.1 fun hnone =>
    absurd (firstOffender_eq_none_iff.1 hnone) (ne_true_of_eq_false hv)
  have hscan := ho'
  rw [firstOffender, if_neg (not_not.2 h4), findSome?_range_eq_some_iff] at hscan
  obtain ⟨k, hk, hat, hbefore⟩ := hscan
  obtain ⟨o, ho, rfl⟩ := Option.map_eq_some_iff.1 hat
  exact ⟨k, o, hk, ho, fun j hj => Option.map_eq_none_iff.1 (hbefore j hj), ho'⟩

/-! ### The states of a run -/

/-- VAL after `k` groups. -/
abbrev validatedTo (s : State) (k : Nat) : State := { s with k := BitVec.ofNat s.xw k }

section Run
variable {s : State} (hst : started .val s)

include hst in
theorem validatedTo_zero : validatedTo s 0 = s := by
  rw [started_eq hst]
  rfl

include hst in
theorem step_validatedTo (k : Nat) : step (validatedTo s k) = execVal (validatedTo s k) := by
  obtain ⟨hd, hstatus, -, -, -, -, hin, -⟩ := hst
  exact step_of_busy (s := validatedTo s k) (congrArg Status.state hstatus) hd hin

variable (h4 : s.len.toNat % 4 = 0) (hsrc : ∀ i, i < s.len.toNat → SrcOk s i) {k : Nat}
  (hk : k < textGroups s.len.toNat)

include hk in
theorem validatedTo_k : (validatedTo s k).k.toNat = k :=
  toNat_ofNat_of_lt (hk.trans (lt_of_le_of_lt (Nat.div_le_self _ 4) s.len.isLt))

include hst hk in
/-- The group VAL reads is the string's. -/
theorem sourceGroup_validatedTo : sourceGroup (validatedTo s k) (4 * k) = groupAt (sourceBytes s) k := by
  obtain ⟨-, -, -, -, -, -, -, hraced, -⟩ := hst
  rw [sourceGroup_of_raced_nil (s := validatedTo s k) hraced]
  rw [textGroups] at hk
  exact groupInMemory_eq_groupAt s (by omega)

include hsrc hk in
/-- The group VAL reads may be read. -/
theorem srcOk_validatedTo {j : Nat} (hj : j < 4) : SrcOk (validatedTo s k) (4 * k + j) := by
  rw [textGroups] at hk
  exact hsrc _ (by omega)

include hst h4 hsrc hk

theorem step_validatedTo_legal
    (hg : chkGroup (isLastGroup s.len.toNat k) (groupAt (sourceBytes s) k) = none) :
    step (validatedTo s k) = .next (validatedTo s (k + 1)) := by
  have hcount := validatedTo_k hk
  have hstep := execVal_of_legal_group (s := validatedTo s k) h4
  rw [hcount, sourceGroup_validatedTo hst hk] at hstep
  exact (step_validatedTo hst k).trans (hstep (Nat.ne_of_lt hk) (fun _ hj => srcOk_validatedTo hsrc hk hj) hg)

theorem step_validatedTo_offender {o : Offender}
    (hg : chkGroup (isLastGroup s.len.toNat k) (groupAt (sourceBytes s) k) = some o) :
    step (validatedTo s k) = .next (raiseFormatError (validatedTo s k) { o with pos := 4 * k + o.pos }) := by
  have hcount := validatedTo_k hk
  have hstep := execVal_of_offender (s := validatedTo s k) h4
  rw [hcount, sourceGroup_validatedTo hst hk] at hstep
  exact (step_validatedTo hst k).trans (hstep (Nat.ne_of_lt hk) (fun _ hj => srcOk_validatedTo hsrc hk hj) hg)

end Run

/-- Settles O54: from group to group, up to the finishing step or to the first offender. -/
theorem validateRun : Obligations.ValidateRun := by
  intro s hst hsrc
  have hlen := sourceBytes_length s
  have hresult : s.result = 0 := by
    obtain ⟨-, -, -, hr, -⟩ := hst
    exact hr
  constructor
  · intro hv
    obtain ⟨h4, hlegal⟩ := validText_iff.1 hv
    rw [hlen] at h4 hlegal
    have hq : textGroups s.len.toNat < 2 ^ s.xw := lt_of_le_of_lt (Nat.div_le_self _ 4) s.len.isLt
    have hrun := runSteps_along_to (f := validatedTo s)
      (fun k hk => step_validatedTo_legal hst h4 (hsrc h4) hk (hlegal k hk))
      ((step_validatedTo hst _).trans (execVal_at_end h4 (toNat_ofNat_of_lt hq)))
    rw [validatedTo_zero hst] at hrun
    obtain ⟨-, hstatus, -⟩ := hst
    rw [hrun, finish, hstatus]
  · intro hv
    by_cases h4 : s.len.toNat % 4 = 0
    · obtain ⟨k, o, hk, ho, hbefore, hfirst⟩ := exists_first_offender (by rw [hlen, h4]) hv
      rw [hlen] at hk ho hbefore
      have hrun := runSteps_along_to (f := validatedTo s)
        (fun j hj => step_validatedTo_legal hst h4 (hsrc h4) (hj.trans hk) (hbefore j hj))
        (step_validatedTo_offender hst h4 (hsrc h4) hk ho)
      rw [validatedTo_zero hst] at hrun
      refine ⟨_, k + 1, BitVec.ofNat s.xw k, hfirst, by omega, ?_⟩
      rw [hrun, raiseFormatError, hresult]
    · refine ⟨lengthOffender s.len.toNat, 1, s.k, ?_, by omega, ?_⟩
      · rw [firstOffender, hlen, if_pos h4]
      · have hstep := (step_validatedTo hst 0).trans (execVal_of_bad_length (s := validatedTo s 0) h4)
        rw [validatedTo_zero hst] at hstep
        rw [runSteps_succ_of_next hstep, runSteps_zero, raiseFormatError, hresult]

/-! ### What a run of VAL leaves alone -/

/-- `t` is `s` but for the registers VAL may change. -/
def ValChanges (s t : State) : Prop :=
  ∃ (k p c : Word s.xw) (st : Status), t = { s with k := k, status := st, errpos := p, errchar := c, result := 0 }

/-- The same outcome, the next state's open buffers being `ws`. -/
def withWindows (ws : List Window) : Host.Outcome State Fault Refusal → Host.Outcome State Fault Refusal
  | .next t => .next { t with windows := ws }
  | .fault r => .fault r
  | .refused r => .refused r

/-- VAL does not look at the open buffers. -/
theorem execVal_windows (s : State) (ws : List Window) :
    execVal { s with windows := ws } = withWindows ws (execVal s) := by
  have hgather : gatherChars { s with windows := ws } (4 * s.k.toNat) = gatherChars s (4 * s.k.toNat) := rfl
  unfold execVal
  simp only [hgather]
  repeat' split
  all_goals rfl

theorem execVal_changes {s t : State} (hr : s.result = 0) (h : execVal s = .next t) : ValChanges s t := by
  have hs : ValChanges s s := ⟨s.k, s.errpos, s.errchar, s.status, by rw [← hr]⟩
  obtain ⟨-, rfl⟩ | ⟨-, -, rfl⟩ | ⟨-, -, -, ⟨o, -, rfl⟩ | ⟨-, rfl⟩⟩ := execVal_eq_next h
  · exact ⟨_, _, _, _, rfl⟩
  · exact ⟨s.k, s.errpos, s.errchar, ⟨.done, s.status.err⟩, by rw [← hr]; rfl⟩
  · exact ⟨_, _, _, _, rfl⟩
  · exact ⟨_, s.errpos, s.errchar, s.status, by rw [← hr]⟩

/-- A block left to VAL: VAL is its operation, and nothing but the engine moves. -/
structure LeftToVal (s : State) : Prop where
  op : runningOp s = some .val
  inputs : s.inputs = []
  result : s.result = 0

theorem LeftToVal.of_changes {s t : State} (hs : LeftToVal s) (h : ValChanges s t) : LeftToVal t := by
  obtain ⟨k, p, c, st, rfl⟩ := h
  exact ⟨hs.op, hs.inputs, rfl⟩

theorem ValChanges.trans {s t u : State} (h : ValChanges s t) (h' : ValChanges t u) : ValChanges s u := by
  obtain ⟨k, p, c, st, rfl⟩ := h
  obtain ⟨k', p', c', st', rfl⟩ := h'
  exact ⟨k', p', c', st', rfl⟩

/-- A step of such a block is VAL's own, or none; the open buffers do not enter. -/
theorem LeftToVal.step {s t : State} (hs : LeftToVal s) (h : step s = .next t) (ws : List Window) :
    ValChanges s t ∧ Machine.step { s with windows := ws } = .next { t with windows := ws } := by
  rw [step_of_no_input hs.inputs] at h
  rw [step_of_no_input (s := { s with windows := ws }) hs.inputs]
  by_cases hb : s.status.state = .busy
  · have hval : execVal s = .next t := (engineTurn_busy hb hs.op).symm.trans h
    refine ⟨execVal_changes hs.result hval, ?_⟩
    exact (engineTurn_busy (s := { s with windows := ws }) hb hs.op).trans
      ((execVal_windows s ws).trans (congrArg (withWindows ws) hval))
  · obtain rfl := Host.Outcome.next.inj ((engineTurn_not_busy hb).symm.trans h)
    exact ⟨⟨s.k, s.errpos, s.errchar, s.status, by rw [← hs.result]⟩,
      engineTurn_not_busy (s := { s with windows := ws }) hb⟩

theorem LeftToVal.run {n : Nat} {s t : State} (hs : LeftToVal s) (h : runSteps n s = .next t) (ws : List Window) :
    ValChanges s t ∧ runSteps n { s with windows := ws } = .next { t with windows := ws } := by
  induction n generalizing s with
  | zero =>
    obtain rfl := Host.Outcome.next.inj h
    exact ⟨⟨s.k, s.errpos, s.errchar, s.status, by rw [← hs.result]⟩, rfl⟩
  | succ n ih =>
    rw [runSteps_succ] at h
    cases hstep : Machine.step s with
    | next u =>
      rw [hstep] at h
      obtain ⟨hchanges, hstep'⟩ := hs.step hstep ws
      obtain ⟨hrest, hrun⟩ := ih (hs.of_changes hchanges) h
      exact ⟨hchanges.trans hrest, (runSteps_succ_of_next hstep' n).trans hrun⟩
    | fault r =>
      rw [hstep] at h
      cases h
    | refused r =>
      rw [hstep] at h
      cases h

/-- VAL issued again over what it left is VAL issued, but for the open buffers. -/
theorem issueCommand_after_val {s t : State} (hst : started .val s) (h : ValChanges s t) :
    issueCommand t t.cmd = { s with windows := (issueCommand t t.cmd).windows } := by
  obtain ⟨k, p, c, st, rfl⟩ := h
  obtain ⟨hd, hstatus, hk, hr, hp, hc, -, hraced, hnext⟩ := hst
  simp [issueCommand, hd, hstatus, hk, hr, hp, hc, hraced, hnext]

/-- Settles O59: the second run starts where the first one did, but for the open buffers. -/
theorem validateIsIdempotent : Obligations.ValidateIsIdempotent := by
  intro s t n hst hrun _
  have hs : LeftToVal s := by
    obtain ⟨hd, -, -, hr, -, -, hin, -⟩ := hst
    exact ⟨selectOp_of_decode hd, hin, hr⟩
  obtain ⟨hchanges, hrun'⟩ := hs.run hrun (issueCommand t t.cmd).windows
  exact (congrArg (runSteps n) (issueCommand_after_val hst hchanges)).trans hrun'

end Sys2Proof.Machine
end
